-- ==== Sys2Proof/Word.lean ====
section
/-! DEFINITION. The two word types of B32CODEC: a host word of 32 bits (00_scope.md R7, HDATA_W) and a buffer entry
of 8 bits (R7, CHAR_W and BYTE_W). -/
namespace Sys2Proof

/-- A 32-bit word of the host port, and the width of every 32-bit register (00_scope.md R7, 10_state.md R18). -/
abbrev Word := BitVec 32

/-- One entry of IBUF or OBUF: a payload byte or a character code (00_scope.md R7, 30_encoding.md R73). -/
abbrev Byte := BitVec 8

/-- `ceil(a/b)` of 00_scope.md R12. -/
def ceilDiv (a b : Nat) : Nat := (a + (b - 1)) / b

/-- `mask(n) = 2^n - 1` of 00_scope.md R12. -/
def mask (n : Nat) : Nat := 2 ^ n - 1

end Sys2Proof
end

