-- ==== Sys2Proof/Machine/Alphabet.lean ====
section
/-! DEFINITION. The alphabet ROM, its reverse lookup and the pad code (20_memory.md R53 to R57). The character codes are
ASCII (93_implementation_defined.md G1, G3: the spec's own PRESUMED values, log 11). -/
namespace Sys2Proof.Machine

/-- The ROM's contents (20_memory.md R53), the table's four columns: codes of `ABCDEFGHIJKLMNOPQRSTUVWXYZ234567`. -/
def romTable : List Byte :=
  [0x41, 0x42, 0x43, 0x44, 0x45, 0x46, 0x47, 0x48]
    ++ [0x49, 0x4A, 0x4B, 0x4C, 0x4D, 0x4E, 0x4F, 0x50]
    ++ [0x51, 0x52, 0x53, 0x54, 0x55, 0x56, 0x57, 0x58]
    ++ [0x59, 0x5A, 0x32, 0x33, 0x34, 0x35, 0x36, 0x37]

/-- `ROM[v]` (R53). The table has an entry for every 5-bit value. -/
def rom (v : BitVec 5) : Byte := romTable.getD v.toNat 0

/-- `RLUT(c)` (R55): `some i` is the pair (1, i), the position of `c` in the ROM; `none` is (0, 0). -/
def rlut (c : Byte) : Option (BitVec 5) := (romTable.findIdx? (· == c)).map (BitVec.ofNat 5)

/-- RLUT by R55's code ranges ("Equivalently"; R56: how it is built is invisible). -/
def rlutByRange (c : Byte) : Option (BitVec 5) :=
  if 0x41 ≤ c.toNat ∧ c.toNat ≤ 0x5A then some (BitVec.ofNat 5 (c.toNat - 0x41))
  else if 0x32 ≤ c.toNat ∧ c.toNat ≤ 0x37 then some (BitVec.ofNat 5 (c.toNat - 0x18))
  else none

/-- The pad symbol `=` (R57). -/
def padCode : Byte := 0x3D

end Sys2Proof.Machine
end

