-- ==== Sys2Proof/Config.lean ====
section
/-! DEFINITION. The configuration of a B32CODEC (its two buffer depths, 00_scope.md R7, R10) and the free values: what
the spec leaves to an unconstrained draw (93_implementation_defined.md U1 to U5) and the one value on which it is silent. -/
namespace Sys2Proof

/-- The two OPEN parameters of 00_scope.md R7. They are configuration, not state (R10): State carries them in a field
that no step changes, so that a claim about every state is a claim about every configuration (log 1, DESIGN CHOICE). -/
structure Config where
  /-- IBUF_DEPTH, the number of entries of the input buffer. -/
  ibufDepth : Nat
  /-- OBUF_DEPTH, the number of entries of the output buffer. -/
  obufDepth : Nat
  deriving DecidableEq, Repr

/-- The bounds of 00_scope.md R7: 0 < IBUF_DEPTH ≤ 2^28 and 8·ceil(IBUF_DEPTH/5) ≤ OBUF_DEPTH ≤ 2^28. "A configuration
that breaks the bound is not a B32CODEC; a model refuses it" (R8). -/
def Config.wf (c : Config) : Bool :=
  decide (0 < c.ibufDepth) && decide (c.ibufDepth ≤ 2 ^ 28)
    && decide (8 * ceilDiv c.ibufDepth 5 ≤ c.obufDepth) && decide (c.obufDepth ≤ 2 ^ 28)

/-- FREE VALUE (U1, 20_memory.md R51): what IBUF entry `i` holds after reset number `r`, until the host writes it. Log 2. -/
opaque Config.ibufAtReset (r i : Nat) : Byte

/-- FREE VALUE (U2, U5, 20_memory.md R51, 70_reset_and_hazards.md R135): what OBUF entry `i` holds after reset number
`r`, until the engine writes it. Log 2. -/
opaque Config.obufAtReset (r i : Nat) : Byte

/-- FREE VALUE (U3, 20_memory.md R48): the whole 32-bit word that draw number `n`, a host read of the OBUF window while
BUSY, returns. Log 3. -/
opaque Config.busyObufRead (n : Nat) : Word

/-- FREE VALUE (U4, 70_reset_and_hazards.md R141): what OBUF entry `i`, below floor(5·L/8), holds after the
FINISH(NOVALUE) that is draw number `n`. Log 4. -/
opaque Config.obufAfterNovalue (n i : Nat) : Byte

/-- FREE VALUE (10_state.md R16 is silent): what h_rdata holds after draw number `n`, a host write that was not ignored.
Log 5. -/
opaque Config.rdataAfterWrite (n : Nat) : Word

end Sys2Proof
end

