-- ==== Sys2Proof/Syntax.lean ====
section
/-! DEFINITION. The syntax: the two commands of spec/opcode_table.json, the host's script language (30_encoding.md
R74 to R76) and the turns of the two agents. -/
namespace Sys2Proof

/-- The two rows of spec/opcode_table.json. The one operand of the word is P, the source's `paddingEnabled`
(30_encoding.md R67, R72). -/
inductive Instr where
  /-- ENCODE, OP = 0b01 (42_encode.md R104). -/
  | encode (pad : Bool)
  /-- DECODE, OP = 0b10 (41_decode.md R89). -/
  | decode (pad : Bool)
  deriving DecidableEq, Repr

/-- One host transaction (h_we, h_addr, h_wdata), the binary form of a script (30_encoding.md R76): a read is written
with h_wdata = 0. -/
structure Transaction where
  we    : Bool
  addr  : Word
  wdata : Word
  deriving DecidableEq, Repr

/-- What the host still has to do, one bus access each (10_state.md R17). `wr`, `rd` and `poll` are the statements of
30_encoding.md R74. The other three are the data-dependent parts of READOUT and COPYOUT (R75), which continue
according to the value an access returns. -/
inductive HostOp where
  /-- `WR a, v`. -/
  | wr (a v : Word)
  /-- `RD a`. -/
  | rd (a : Word)
  /-- `POLL`: read STATUS, again while bit 0 of the value is 1. -/
  | poll
  /-- READOUT's `RD OUT_LEN -> n`, then `RD OBUF[i]` for i = 0 .. n-1. -/
  | readLenThenCells
  /-- COPYOUT's `RD OUT_LEN -> n`, then a copy of OBUF[i] to IBUF[i] for i = 0 .. n-1, then `WR IN_LEN, n`. -/
  | readLenThenCopy
  /-- COPYOUT's `RD OBUF[i] -> x`, then `WR IBUF[i], x`. -/
  | copyCell (i : Word)
  deriving DecidableEq, Repr

/-- A statement of a host script: R74's three and the pseudo-instructions of R75. -/
inductive Stmt where
  | wr (a v : Word)
  | rd (a : Word)
  | poll
  /-- ENC, ENC.P, DEC and DEC.P: write the command's word to CMD. -/
  | command (i : Instr)
  /-- `LOADIN e0, ..., e(n-1)`. -/
  | loadin (es : List Word)
  /-- `LOADIN "s"`. -/
  | loadinText (s : List Char)
  /-- `RUN c`: the command, then POLL. -/
  | run (i : Instr)
  | readout
  | copyout
  deriving DecidableEq, Repr

/-- Whose action is next (00_scope.md R9, 10_state.md R17): the host's next access, one engine step, or an edge with
rst = 1 (70_reset_and_hazards.md R134). -/
inductive Turn where
  | host
  | engine
  | reset
  deriving DecidableEq, Repr

end Sys2Proof
end

