-- ==== Sys2Proof/WellFormed.lean ====
section
/-! DEFINITION. What syntax is well formed. A command's one operand is the single bit P (30_encoding.md R72), so every
term of Instr is well formed; a host statement is checked, since R75's LOADIN must stay inside the IBUF window and a
text character must be one 8-bit code (92_eei_decisions.md D2). -/
namespace Sys2Proof

/-- 30_encoding.md R68, R72: either value of P is legal for either command, and there is no other operand. -/
def Instr.wellFormed : Instr → Bool
  | .encode _ => true
  | .decode _ => true

/-- A LOADIN of `n` elements writes word addresses 0x1000_0000 .. 0x1000_0000 + (n-1) (R75), which lie in the IBUF
region only while n ≤ 2^28 (20_memory.md R43). -/
def fitsWindow (n : Nat) : Bool := decide (n ≤ 2 ^ 28)

/-- A text character has one 8-bit code (00_scope.md R7, CHAR_W; "text with characters wider than 8 bits cannot be
presented", 92_eei_decisions.md D2). -/
def isOneCode (c : Char) : Bool := decide (c.toNat < 256)

/-- The check of a host statement. -/
def Stmt.wellFormed : Stmt → Bool
  | .wr _ _ => true
  | .rd _ => true
  | .poll => true
  | .command i => i.wellFormed
  | .loadin es => fitsWindow es.length
  | .loadinText s => fitsWindow s.length && s.all isOneCode
  | .run i => i.wellFormed
  | .readout => true
  | .copyout => true

end Sys2Proof
end

