-- ==== Sys2Proof/Decode.lean ====
section
/-! DEFINITION. The command decoder (30_encoding.md R69, R77), total on every 32-bit word, and after it the encoder
written from the patterns of R67. A command is one 32-bit word written to CMD (R71) and has no byte order
(20_memory.md R60), so the decoder reads the word itself. -/
namespace Sys2Proof

/-- Why a word is ILLEGAL (30_encoding.md R69). Both reasons finish the command with ERR_CMD (R70): the name is the
decoder's, no register records it (60_exceptions.md R119). -/
inductive IllegalWord where
  /-- Check 1 of R77: bits 31 to 3 are not all 0. -/
  | reservedBits
  /-- Check 3 of R77: OP is 0b00 or 0b11. -/
  | reservedOp
  deriving DecidableEq, Repr

/-- What `decodeCmd` gives: a command, or ILLEGAL. -/
inductive Decoded where
  | command (i : Instr)
  | illegal (why : IllegalWord)
  deriving DecidableEq, Repr

/-- `decodeCmd` of 30_encoding.md R69, its three checks in the order of R77. -/
def decodeCmd (w : Word) : Decoded :=
  if w.extractLsb 31 3 ≠ 0#29 then .illegal .reservedBits
  else if w.extractLsb 1 0 = 0b01#2 then .command (.encode (w.getLsbD 2))
  else if w.extractLsb 1 0 = 0b10#2 then .command (.decode (w.getLsbD 2))
  else .illegal .reservedOp

/-- The word of a command: the patterns `00000000000000000000000000000P01` and `00000000000000000000000000000P10` of
30_encoding.md R67, bit 31 first. -/
def encode : Instr → Word
  | .encode pad => 0#29 ++ BitVec.ofBool pad ++ 0b01#2
  | .decode pad => 0#29 ++ BitVec.ofBool pad ++ 0b10#2

/-- The instruction a decoder gives, if any. -/
def Decoded.instr? : Decoded → Option Instr
  | .command i => some i
  | .illegal _ => none

/-- The decoder on a word of spec/opcode_table.json: every row has 32 bits; bits at and above `nbits` are 0, and no
command is longer than one word (30_encoding.md R71). -/
def decodeTableWord (nbits w : Nat) : Option Instr :=
  if nbits ≤ 32 then (decodeCmd (BitVec.ofNat 32 (w % 2 ^ nbits))).instr? else none

end Sys2Proof
end

