-- ==== Sys2Proof/Machine/State.lean ====
section
/-! DEFINITION. The whole state of B32CODEC (10_state.md R16 to R37, 20_memory.md R41) as plain data, the reasons a step
can stop, and the state after reset (10_state.md R36). -/
namespace Sys2Proof.Machine

/-- The sequencer state PHASE (10_state.md R30). Its binary encoding is invisible (93_implementation_defined.md U8). -/
inductive Phase where
  | idle
  | check
  | dStrip
  | dWalk
  | dResid
  | eWalk
  | eEmit
  | eFlush
  | ePad
  deriving DecidableEq, Repr

/-- STATUS.RESULT (60_exceptions.md R119). Codes 5 to 15 are never produced (V2), so they have no constructor. -/
inductive Result where
  | none
  | ok
  | novalue
  | errCmd
  | errLen
  deriving DecidableEq, Repr

/-- The bit pool (10_state.md R29): POOL, whose low CNT bits are the bits not yet emitted, and CNT. -/
structure Pool where
  bits : BitVec 12
  cnt  : BitVec 4
  deriving DecidableEq, Repr

/-- POOL = 0 and CNT = 0, as accept leaves the pool (10_state.md R22). -/
def Pool.empty : Pool := ⟨0, 0⟩

/-- A buffer's written entries: (index, value) pairs, indices strictly rising. What an unlisted index reads as is NO
STORED VALUE: a read of it gives the free value its last reset drew (log 2, DESIGN CHOICE), so no listed entry can equal
it and the form is canonical. -/
abbrev Memory := List Host.Cell

/-- The canonical form of a buffer's list: indices strictly rising. -/
def Memory.wf : Memory → Bool
  | [] => true
  | [_] => true
  | a :: b :: m => decide (a.1 < b.1) && Memory.wf (b :: m)

/-- The state. Register names follow 10_state.md. The last five fields are the model's own. -/
structure State where
  /-- IBUF_DEPTH and OBUF_DEPTH (00_scope.md R7, R10): no step changes them. -/
  cfg    : Config
  /-- PHASE (R30). STATUS.BUSY is computed from it (R20). -/
  phase  : Phase
  /-- STATUS.DONE (R20); the pin done_o equals it (R27). -/
  done   : Bool
  /-- STATUS.DROP (R20, R23). -/
  drop   : Bool
  /-- STATUS.RESULT (R20, R24). -/
  result : Result
  /-- IN_LEN (R25). -/
  inLen  : Word
  /-- OUT_LEN (R26). -/
  outLen : Word
  /-- The pin h_rdata (R16). -/
  hRdata : Word
  /-- L_CMD, the latched command word (R28). -/
  lCmd   : Word
  /-- L_LEN, the latched input length (R28). -/
  lLen   : Word
  /-- POOL and CNT (R29). -/
  pool   : Pool
  /-- IPOS, the next IBUF index the walk reads (R31). -/
  ipos   : Word
  /-- OPOS, the next OBUF index the engine writes (R31). -/
  opos   : Word
  /-- AEND, the exclusive end of the decode active range (R32). -/
  aend   : Word
  /-- NSTRIP, the pad symbols stripped so far (R32). -/
  nstrip : BitVec 3
  /-- ETOTAL, the number of characters the encode writes (R33). -/
  etotal : Word
  /-- IBUF (20_memory.md R41): the entries written since the last reset. -/
  ibuf   : Memory
  /-- OBUF (20_memory.md R41): the entries written or redrawn since the last reset. -/
  obuf   : Memory
  /-- MODEL'S OWN: the reset whose free draw the unlisted buffer entries hold (log 2). -/
  resets : Nat
  /-- MODEL'S OWN: the number of the next free value (logs 3, 4, 5). -/
  draws  : Nat
  /-- MODEL'S OWN: whose action is next (10_state.md R17; log 6). -/
  turns  : List Turn
  /-- MODEL'S OWN: the rest of the host's script (30_encoding.md R76; log 6). -/
  script : List HostOp
  /-- MODEL'S OWN: the values the host has read, newest first (log 6). -/
  reads  : List Word
  deriving DecidableEq, Repr

/-- The model's own faults. The machine raises none (60_exceptions.md R118): each fault watches a precondition that the
spec derives as always true, and no state that a run reaches raises one. All are safe: the model stops where the spec
describes nothing (log 8). -/
inductive Fault where
  /-- Raised by an engine read of IBUF at or beyond IBUF_DEPTH (20_memory.md R49: "never out of range"). Safe. -/
  | ibufOutOfRange
  /-- Raised by an engine write of OBUF at or beyond OBUF_DEPTH (20_memory.md R50, 00_scope.md R8). Safe. -/
  | obufOutOfRange
  /-- Raised by PUSH(v, n) with CNT + n > 12 (40_bitpool.md R82, precondition). Safe. -/
  | pushOverflow
  /-- Raised by FLUSH5 with CNT > 4 (40_bitpool.md R85, precondition). Safe. -/
  | flushOverflow
  deriving DecidableEq, Repr

/-- The reasons for a refusal. -/
inductive Refusal where
  /-- Raised by an arm of exec whose instruction has no meaning yet: no arm is. Safe. -/
  | notModelled (mnemonic : String)
  /-- Raised by step when the depths break the bounds of 00_scope.md R7 ("a model refuses it", R8). Safe. -/
  | badConfig
  deriving DecidableEq, Repr

/-- The machine right after reset (10_state.md R36, R37; 70_reset_and_hazards.md R136). The depths are those of the
spec's vectors (95_test_vectors.md; log 1, DESIGN CHOICE). -/
def State.reset : State where
  cfg    := ⟨16, 32⟩
  phase  := .idle
  done   := false
  drop   := false
  result := .none
  inLen  := 0
  outLen := 0
  hRdata := 0
  lCmd   := 0
  lLen   := 0
  pool   := .empty
  ipos   := 0
  opos   := 0
  aend   := 0
  nstrip := 0
  etotal := 0
  ibuf   := []
  obuf   := []
  resets := 0
  draws  := 0
  turns  := []
  script := []
  reads  := []

/-- The outcome of one action of this machine. -/
abbrev Out := Host.Outcome State Fault Refusal

end Sys2Proof.Machine
end

