-- ==== Sys2Proof/Machine/BitPool.lean ====
section
/-! DEFINITION. The four primitives on the bit pool (40_bitpool.md R82 to R85). Each computes on naturals and narrows
once at the end. Where a precondition fails the engine does not call them (Engine steps raise a fault of the model). -/
namespace Sys2Proof.Machine

/-- `PUSH(v, n)` (R82): POOL <- ((POOL << n) | v)[11:0]; CNT <- CNT + n. -/
def Pool.push {n : Nat} (p : Pool) (v : BitVec n) : Pool where
  bits := BitVec.ofNat 12 (p.bits.toNat <<< n ||| v.toNat)
  cnt  := BitVec.ofNat 4 (p.cnt.toNat + n)

/-- PUSH's precondition (R82): CNT + n ≤ 12. -/
def Pool.fits (p : Pool) (n : Nat) : Bool := decide (p.cnt.toNat + n ≤ 12)

/-- The value `POP(k)` returns (R83): POOL >> (CNT - k), k bits (masked to k bits, R87). -/
def Pool.top (p : Pool) (k : Nat) : BitVec k := BitVec.ofNat k (p.bits.toNat >>> (p.cnt.toNat - k))

/-- The pool after `POP(k)` (R83): CNT <- CNT - k; POOL <- POOL & mask(CNT - k). -/
def Pool.pop (p : Pool) (k : Nat) : Pool where
  bits := BitVec.ofNat 12 (p.bits.toNat &&& mask (p.cnt.toNat - k))
  cnt  := BitVec.ofNat 4 (p.cnt.toNat - k)

/-- POP's precondition (R83): CNT ≥ k. -/
def Pool.holds (p : Pool) (k : Nat) : Bool := decide (k ≤ p.cnt.toNat)

/-- `RESIDUE_ZERO()` (R84): (POOL & mask(CNT)) = 0. -/
def Pool.residueZero (p : Pool) : Bool := p.bits.toNat &&& mask p.cnt.toNat == 0

/-- The value `FLUSH5()` returns (R85): (POOL << (5 - CNT))[4:0]. The pool is empty after it. -/
def Pool.flushed (p : Pool) : BitVec 5 := BitVec.ofNat 5 (p.bits.toNat <<< (5 - p.cnt.toNat))

end Sys2Proof.Machine
end

