-- ==== Sys2Proof/Machine/Flags.lean ====
section
/-! DEFINITION. STATUS: its computed bit, its codes and the word the host reads (10_state.md R20, R27; 60_exceptions.md
R119). No instruction reads a flag (10_state.md R34). -/
namespace Sys2Proof.Machine

/-- STATUS.BUSY: 1 exactly when PHASE ≠ IDLE (10_state.md R20). -/
def State.busy (s : State) : Bool := decide (s.phase ≠ .idle)

/-- The RESULT codes (60_exceptions.md R119). -/
def Result.code : Result → BitVec 4
  | .none    => 0
  | .ok      => 1
  | .novalue => 2
  | .errCmd  => 3
  | .errLen  => 4

/-- The STATUS word (10_state.md R20): bits 31:8 read 0, RESULT in 7:4, bit 3 reads 0, then DROP, DONE, BUSY. -/
def State.status (s : State) : Word :=
  0#24 ++ s.result.code ++ 0#1 ++ BitVec.ofBool s.drop ++ BitVec.ofBool s.done ++ BitVec.ofBool s.busy

/-- The pin done_o (10_state.md R27). -/
def State.doneO (s : State) : Bool := s.done

/-- DROP <- 1 (10_state.md R23). -/
def State.setDrop (s : State) : State := { s with drop := true }

end Sys2Proof.Machine
end

