-- ==== Sys2Proof/Machine/Operands.lean ====
section
/-! DEFINITION. The operand forms: the named views of L_CMD (10_state.md R28), the sizes of an encoding (42_encode.md
R106) and the decoding of a host word address (20_memory.md R43 to R45). -/
namespace Sys2Proof.Machine

/-- L_OP = L_CMD[1:0] (10_state.md R28). -/
def State.lOp (s : State) : BitVec 2 := s.lCmd.extractLsb 1 0

/-- L_PAD = L_CMD[2] (10_state.md R28). -/
def State.lPad (s : State) : Bool := s.lCmd.getLsbD 2

/-- L_RSV = L_CMD[31:3] (10_state.md R28). -/
def State.lRsv (s : State) : BitVec 29 := s.lCmd.extractLsb 31 3

/-- The symbols that carry data: ceil(8·L/5) (42_encode.md R106, `quintets`). -/
def quintets (len : Nat) : Nat := ceilDiv (8 * len) 5

/-- `outputChars = ceil(quintets / 8) * 8` (42_encode.md R106). -/
def outputChars (len : Nat) : Nat := ceilDiv (quintets len) 8 * 8

/-- What CHECK puts in ETOTAL (60_exceptions.md R124). -/
def encodedLength (pad : Bool) (len : Nat) : Nat := if pad then 8 * ceilDiv len 5 else quintets len

/-- The bytes an active range of `e` symbols decodes to: floor(5·e/8) (41_decode.md R97). -/
def decodedLength (e : Nat) : Nat := 5 * e / 8

/-- What a host word address selects (20_memory.md R43). -/
inductive Target where
  | cmd
  | status
  | inLen
  | outLen
  | ibuf (i : Nat)
  | obuf (i : Nat)
  | unmapped
  deriving DecidableEq, Repr

/-- Region 0 (20_memory.md R44): the four registers, and unmapped above them. -/
def registerAt (index : BitVec 28) : Target :=
  if index = 0 then .cmd
  else if index = 1 then .status
  else if index = 2 then .inLen
  else if index = 3 then .outLen
  else .unmapped

/-- The address map: region = a[31:28], index = a[27:0] (20_memory.md R43 to R45). -/
def target (cfg : Config) (a : Word) : Target :=
  let region := a.extractLsb 31 28
  let index := a.extractLsb 27 0
  if region = 0x0#4 then registerAt index
  else if region = 0x1#4 ∧ index.toNat < cfg.ibufDepth then .ibuf index.toNat
  else if region = 0x2#4 ∧ index.toNat < cfg.obufDepth then .obuf index.toNat
  else .unmapped

/-- The word address of CMD (10_state.md R18). -/
def cmdAddr : Word := 0x0000_0000
/-- The word address of STATUS (10_state.md R18). -/
def statusAddr : Word := 0x0000_0001
/-- The word address of IN_LEN (10_state.md R18). -/
def inLenAddr : Word := 0x0000_0002
/-- The word address of OUT_LEN (10_state.md R18). -/
def outLenAddr : Word := 0x0000_0003
/-- The word address 0x1000_0000 + i of IBUF[i] (20_memory.md R43). -/
def ibufAddr (i : Word) : Word := 0x1000_0000 + i
/-- The word address 0x2000_0000 + i of OBUF[i] (20_memory.md R43). -/
def obufAddr (i : Word) : Word := 0x2000_0000 + i

end Sys2Proof.Machine
end

