-- ==== Sys2Proof/Machine/Ops.lean ====
section
/-! DEFINITION. The shared operations: buffer memories, the engine's access to them (20_memory.md R49, R50), accept
(10_state.md R22), FINISH (60_exceptions.md R125, the block's "trap entry") and reset (70_reset_and_hazards.md R134). -/
namespace Sys2Proof.Machine

/-! ### Buffer memories -/

/-- The value stored at index `i`, if any. -/
def Memory.stored (m : Memory) (i : Nat) : Option Byte :=
  match m with
  | [] => none
  | (j, v) :: rest => if i = j then some v else Memory.stored rest i

/-- Store `v` at index `i`, keeping the canonical form. -/
def Memory.store (m : Memory) (i : Nat) (v : Byte) : Memory :=
  match m with
  | [] => [(i, v)]
  | (j, w) :: rest =>
    if i < j then (i, v) :: (j, w) :: rest
    else if i = j then (i, v) :: rest
    else (j, w) :: Memory.store rest i v

/-- Redraw every index below `n`: index `i` now holds `f i`; every other index keeps its value. -/
def Memory.redraw (m : Memory) (n : Nat) (f : Nat → Byte) : Memory :=
  (List.range n).map (fun i => (i, f i)) ++ m.filter (fun c => decide (n ≤ c.1))

/-- Every listed index is below the buffer's depth. -/
def Memory.below (m : Memory) (depth : Nat) : Bool := m.all (fun c => decide (c.1 < depth))

/-- What IBUF[i] holds: the stored value, or the value its last reset drew (20_memory.md R51). -/
def State.ibufByte (s : State) (i : Nat) : Byte := (s.ibuf.stored i).getD (Config.ibufAtReset s.resets i)

/-- What OBUF[i] holds: the stored value, or the value its last reset drew (20_memory.md R51). -/
def State.obufByte (s : State) (i : Nat) : Byte := (s.obuf.stored i).getD (Config.obufAtReset s.resets i)

/-- `IBUF[i]` in an engine step (20_memory.md R49); nothing where the index does not exist. -/
def State.engineRead (s : State) (i : Nat) : Option Byte :=
  if i < s.cfg.ibufDepth then some (s.ibufByte i) else none

/-- `OBUF[OPOS] <- v; OPOS <- OPOS + 1` in an engine step (20_memory.md R50, 10_state.md R31). -/
def State.emit (s : State) (v : Byte) : Out :=
  if s.opos.toNat < s.cfg.obufDepth then
    .next { s with obuf := s.obuf.store s.opos.toNat v, opos := s.opos + 1 }
  else .fault .obufOutOfRange

/-! ### Accept, FINISH and reset -/

/-- Accept of the command word `w` (10_state.md R22), one indivisible action. -/
def State.accept (s : State) (w : Word) : State :=
  { s with
    lCmd := w, lLen := s.inLen
    done := false, drop := false, result := .none
    outLen := 0
    pool := .empty, ipos := 0, opos := 0
    aend := 0, nstrip := 0, etotal := 0
    phase := .check }

/-- OBUF after FINISH(NOVALUE) (70_reset_and_hazards.md R141): every entry below floor(5·L/8) is unspecified, a fresh free
value (U4, log 4); the others keep their values. The bound by OBUF_DEPTH cuts nothing off in a state a run reaches
(00_scope.md R8). -/
def State.spoiledObuf (s : State) : Memory :=
  s.obuf.redraw (min (decodedLength s.lLen.toNat) s.cfg.obufDepth) (Config.obufAfterNovalue s.draws)

/-- `FINISH(r)` (60_exceptions.md R125): RESULT <- r; DONE <- 1; PHASE <- IDLE; OUT_LEN <- 0 unless r = OK. With r =
NOVALUE, OBUF is left as 70_reset_and_hazards.md R141 says. -/
def State.finish (s : State) (r : Result) : State :=
  { s with
    result := r, done := true, phase := .idle
    outLen := if r = .ok then s.outLen else 0
    obuf := if r = .novalue then s.spoiledObuf else s.obuf
    draws := if r = .novalue then s.draws + 1 else s.draws }

/-- `OUT_LEN <- OPOS`, then `FINISH(OK)` (41_decode.md R102, 42_encode.md R115). -/
def State.finishOk (s : State) : State := State.finish { s with outLen := s.opos } .ok

/-- An edge with rst = 1 (70_reset_and_hazards.md R134, R135): every register at its value of 10_state.md R36, both
buffers a fresh draw. The configuration stays; so does the outside world (turns, script, what the host has read). -/
def State.resetEdge (s : State) : State :=
  { State.reset with
    cfg := s.cfg, resets := s.resets + 1, draws := s.draws
    turns := s.turns, script := s.script, reads := s.reads }

/-- Run `f` on the next state of `o`; a fault or a refusal stays. -/
def andThen (o : Out) (f : State → Out) : Out :=
  match o with
  | .next s => f s
  | .fault r => .fault r
  | .refused r => .refused r

end Sys2Proof.Machine
end

