-- ==== Sys2Proof/Machine/DecodeSteps.lean ====
section
/-! DEFINITION. The DECODE family's engine steps (41_decode.md R100 to R102, and R124's branch for DECODE). -/
namespace Sys2Proof.Machine

/-- CHECK's branch for a legal DECODE word with L_LEN ≤ IBUF_DEPTH (60_exceptions.md R124, 41_decode.md R91). -/
def checkDecode (pad : Bool) (s : State) : Out :=
  if pad ∧ s.lLen.toNat % 8 ≠ 0 then .next (s.finish .novalue)
  else .next { s with aend := s.lLen, phase := if pad then .dStrip else .dWalk }

/-- D_STRIP (41_decode.md R100): one examined character. -/
def stepDStrip (s : State) : Out :=
  if s.nstrip.toNat < 6 ∧ 0 < s.aend.toNat then
    match s.engineRead (s.aend.toNat - 1) with
    | none => .fault .ibufOutOfRange
    | some c =>
      if c = padCode then .next { s with aend := s.aend - 1, nstrip := s.nstrip + 1 }
      else .next { s with phase := .dWalk }
  else .next { s with phase := .dWalk }

/-- D_WALK's effect for an alphabet character of value `v` (41_decode.md R101): PUSH(v, 5), IPOS + 1, and, when CNT
reaches 8, one byte popped to OBUF. -/
def acceptSymbol (v : BitVec 5) (s : State) : Out :=
  if s.pool.fits 5 then
    let p := s.pool.push v
    if p.holds 8 then State.emit { s with pool := p.pop 8, ipos := s.ipos + 1 } (p.top 8)
    else .next { s with pool := p, ipos := s.ipos + 1 }
  else .fault .pushOverflow

/-- D_WALK (41_decode.md R101): one character. -/
def stepDWalk (s : State) : Out :=
  if s.ipos = s.aend then .next { s with phase := .dResid }
  else
    match s.engineRead s.ipos.toNat with
    | none => .fault .ibufOutOfRange
    | some c =>
      match rlut c with
      | none => .next (s.finish .novalue)
      | some v => acceptSymbol v s

/-- D_RESID (41_decode.md R102). -/
def stepDResid (s : State) : Out :=
  if s.pool.residueZero then .next s.finishOk else .next (s.finish .novalue)

end Sys2Proof.Machine
end

