-- ==== Sys2Proof/Machine/EncodeSteps.lean ====
section
/-! DEFINITION. The ENCODE family's engine steps (42_encode.md R112 to R115, and R124's branch for ENCODE). -/
namespace Sys2Proof.Machine

/-- CHECK's branch for a legal ENCODE word with L_LEN ≤ IBUF_DEPTH (60_exceptions.md R124, 42_encode.md R106). -/
def checkEncode (pad : Bool) (s : State) : Out :=
  .next { s with etotal := BitVec.ofNat 32 (encodedLength pad s.lLen.toNat), phase := .eWalk }

/-- E_WALK (42_encode.md R112): one byte. -/
def stepEWalk (s : State) : Out :=
  if s.ipos = s.lLen then .next { s with phase := .eFlush }
  else
    match s.engineRead s.ipos.toNat with
    | none => .fault .ibufOutOfRange
    | some b =>
      if s.pool.fits 8 then .next { s with pool := s.pool.push b, ipos := s.ipos + 1, phase := .eEmit }
      else .fault .pushOverflow

/-- E_EMIT (42_encode.md R113): one symbol. -/
def stepEEmit (s : State) : Out :=
  if s.pool.holds 5 then State.emit { s with pool := s.pool.pop 5 } (rom (s.pool.top 5))
  else .next { s with phase := .eWalk }

/-- E_FLUSH (42_encode.md R114): the final partial quintet, if any bits remain. -/
def stepEFlush (s : State) : Out :=
  if s.pool.holds 1 then
    if s.pool.holds 5 then .fault .flushOverflow
    else State.emit { s with pool := .empty, phase := .ePad } (rom s.pool.flushed)
  else .next { s with phase := .ePad }

/-- E_PAD (42_encode.md R115): one pad symbol, or the end. -/
def stepEPad (s : State) : Out :=
  if s.opos.toNat < s.etotal.toNat then s.emit padCode else .next s.finishOk

end Sys2Proof.Machine
end

