-- ==== Sys2Proof/Machine/Engine.lean ====
section
/-! DEFINITION. The engine: CHECK (60_exceptions.md R124), the choice of a step by PHASE (10_state.md R30), the bounds on
a command's steps (70_reset_and_hazards.md R145, R146) and a command run without a host access between its steps
(92_eei_decisions.md D11). -/
namespace Sys2Proof.Machine

/-- CHECK (60_exceptions.md R124), with `c` the decoded L_CMD: ERR_CMD, then ERR_LEN, then the command's own branch. -/
def stepCheck (c : Decoded) (s : State) : Out :=
  match c with
  | .illegal _ => .next (s.finish .errCmd)
  | .command i =>
    if s.cfg.ibufDepth < s.lLen.toNat then .next (s.finish .errLen)
    else
      match i with
      | .encode pad => checkEncode pad s
      | .decode pad => checkDecode pad s

/-- One engine step of the command `c`: "Each engine step reads PHASE and chooses the rule that applies. No step
happens when PHASE = IDLE" (10_state.md R30). -/
def engineStepOf (c : Decoded) (s : State) : Out :=
  match s.phase with
  | .idle   => .next s
  | .check  => stepCheck c s
  | .dStrip => stepDStrip s
  | .dWalk  => stepDWalk s
  | .dResid => stepDResid s
  | .eWalk  => stepEWalk s
  | .eEmit  => stepEEmit s
  | .eFlush => stepEFlush s
  | .ePad   => stepEPad s

/-- One engine step of the latched command. -/
def engineStep (s : State) : Out := engineStepOf (decodeCmd s.lCmd) s

/-- At most `n` engine steps of the command `c`, ending when PHASE = IDLE. -/
def engineRun (c : Decoded) (n : Nat) (s : State) : Out :=
  match n with
  | 0 => .next s
  | k + 1 => if s.busy then andThen (engineStepOf c s) (engineRun c k) else .next s

/-- The most engine steps a DECODE of L characters takes (70_reset_and_hazards.md R145). -/
def decodeStepBound (len : Nat) : Nat := 1 + 7 + (len + 1) + 1

/-- The most engine steps an ENCODE of L bytes takes (70_reset_and_hazards.md R146). -/
def encodeStepBound (len : Nat) : Nat :=
  1 + (len + 1) + (8 * len / 5 + len) + 1 + (8 * ceilDiv len 5 - ceilDiv (8 * len) 5 + 1)

end Sys2Proof.Machine
end

