-- ==== Sys2Proof/Machine/Commands.lean ====
section
/-! DEFINITION. The meanings of the two commands: the engine's steps from where PHASE stands to FINISH, as one action.
92_eei_decisions.md D11 allows the collapse; the host accesses it must still admit between the steps are the machine's
other turns (Machine/Step.lean, log 6). The bounds of R145 and R146 are the fuel (log 10). -/
namespace Sys2Proof.Machine

/-- ENCODE (42_encode.md R104). -/
def execEncode (pad : Bool) (s : State) : Out :=
  engineRun (.command (.encode pad)) (encodeStepBound s.lLen.toNat) s

/-- DECODE (41_decode.md R89). -/
def execDecode (pad : Bool) (s : State) : Out :=
  engineRun (.command (.decode pad)) (decodeStepBound s.lLen.toNat) s

end Sys2Proof.Machine
end

