-- ==== Sys2Proof/Machine/Dispatch.lean ====
section
/-! DEFINITION. One arm per command. -/
namespace Sys2Proof.Machine

def exec (i : Instr) (s : State) : Host.Outcome State Fault Refusal :=
  match i with
  | .encode pad => Sys2Proof.Machine.execEncode pad s
  | .decode pad => Sys2Proof.Machine.execDecode pad s

end Sys2Proof.Machine
end

