-- ==== Sys2Proof/Machine/HostPort.lean ====
section
/-! DEFINITION. The host's accesses (10_state.md R17 to R27, 20_memory.md R45 to R48), the host agent that works through
its script one access at a time, and the pseudo-instructions it is written in (30_encoding.md R74 to R76). -/
namespace Sys2Proof.Machine

/-! ### HostWrite -/

/-- A host write that was not ignored ends what h_rdata presented (10_state.md R16): a free value from then on (log 5). -/
def State.afterWrite (s : State) : State :=
  { s with hRdata := Config.rdataAfterWrite s.draws, draws := s.draws + 1 }

/-- A host write to CMD, IN_LEN or IBUF, whose effect while IDLE is `whenIdle`: while PHASE ≠ IDLE it is discarded and
sets DROP (10_state.md R22, R23, R25; 20_memory.md R46). -/
def State.guardedWrite (s : State) (whenIdle : State) : State :=
  State.afterWrite (if s.busy then s.setDrop else whenIdle)

/-- `HostWrite(a, v)` (10_state.md R17). Writes to STATUS (R20), OUT_LEN (R26), the OBUF window (20_memory.md R48) and
unmapped addresses (R45) are ignored. -/
def hostWrite (a v : Word) (s : State) : State :=
  match target s.cfg a with
  | .cmd => s.guardedWrite (s.accept v)
  | .inLen => s.guardedWrite { s with inLen := v }
  | .ibuf i => s.guardedWrite { s with ibuf := s.ibuf.store i (v.extractLsb 7 0) }
  | .status => s
  | .outLen => s
  | .obuf _ => s
  | .unmapped => s

/-! ### HostRead -/

/-- The value `HostRead(a)` returns (10_state.md R19, R20, R25, R26; 20_memory.md R45, R47, R48). -/
def hostReadValue (a : Word) (s : State) : Word :=
  match target s.cfg a with
  | .cmd => 0
  | .status => s.status
  | .inLen => s.inLen
  | .outLen => s.outLen
  | .ibuf i => (s.ibufByte i).setWidth 32
  | .obuf i => if s.busy then Config.busyObufRead s.draws else (s.obufByte i).setWidth 32
  | .unmapped => 0

/-- `HostRead(a)` (10_state.md R17): the value goes to h_rdata and to the host. It has no side effect on the block
(20_memory.md R63); the number of the next free value moves on, so that each busy OBUF read is a fresh draw (U3). -/
def hostRead (a : Word) (s : State) : State :=
  { s with
    hRdata := hostReadValue a s
    reads := hostReadValue a s :: s.reads
    draws := s.draws + 1 }

/-- One transaction (30_encoding.md R76). -/
def transact (t : Transaction) (s : State) : State :=
  if t.we then hostWrite t.addr t.wdata s else hostRead t.addr s

/-! ### The host's script -/

/-- The access an operation of the script begins with. -/
def accessOf : HostOp → Transaction
  | .wr a v           => ⟨true, a, v⟩
  | .rd a             => ⟨false, a, 0⟩
  | .poll             => ⟨false, statusAddr, 0⟩
  | .readLenThenCells => ⟨false, outLenAddr, 0⟩
  | .readLenThenCopy  => ⟨false, outLenAddr, 0⟩
  | .copyCell i       => ⟨false, obufAddr i, 0⟩

/-- The indices 0 .. n-1 as words. -/
def indices (n : Word) : List Word := (List.range n.toNat).map (BitVec.ofNat 32)

/-- What the operation goes on with once its access has returned `v` (30_encoding.md R74, R75). -/
def continueWith (op : HostOp) (v : Word) : List HostOp :=
  match op with
  | .wr _ _           => []
  | .rd _             => []
  | .poll             => if v.getLsbD 0 then [.poll] else []
  | .readLenThenCells => (indices v).map (fun i => .rd (obufAddr i))
  | .readLenThenCopy  => (indices v).map .copyCell ++ [.wr inLenAddr v]
  | .copyCell i       => [.wr (ibufAddr i) v]

/-- The host's next access (10_state.md R17); a host with no script left does nothing. -/
def hostTurn (s : State) : State :=
  match s.script with
  | [] => s
  | op :: rest =>
    { transact (accessOf op) s with script := continueWith op (hostReadValue (accessOf op).addr s) ++ rest }

/-- The expansion of a statement (30_encoding.md R75: "A pseudo-instruction is exactly its expansion"). -/
def expandStmt : Stmt → List HostOp
  | .wr a v => [.wr a v]
  | .rd a => [.rd a]
  | .poll => [.poll]
  | .command i => [.wr cmdAddr (encode i)]
  | .loadin es => es.mapIdx (fun i e => .wr (ibufAddr (BitVec.ofNat 32 i)) e)
      ++ [.wr inLenAddr (BitVec.ofNat 32 es.length)]
  | .loadinText cs => cs.mapIdx (fun i c => .wr (ibufAddr (BitVec.ofNat 32 i)) (BitVec.ofNat 32 c.toNat))
      ++ [.wr inLenAddr (BitVec.ofNat 32 cs.length)]
  | .run i => [.wr cmdAddr (encode i), .poll]
  | .readout => [.rd statusAddr, .readLenThenCells]
  | .copyout => [.readLenThenCopy]

/-- A host program (30_encoding.md R74): its statements in order. -/
def expandScript (p : List Stmt) : List HostOp := p.flatMap expandStmt

end Sys2Proof.Machine
end

