-- ==== Sys2Proof/Machine/Schedule.lean ====
section
/-! DEFINITION. Whose turn it is (10_state.md R17, log 6): the next turn of the interleaving, or, where the list of turns
is used up, the running command to its FINISH, else the host's next access. -/
namespace Sys2Proof.Machine

/-- The running command, collapsed to one action (92_eei_decisions.md D11): the instruction L_CMD decodes to, or, for an
ILLEGAL word, the engine step that rejects it (60_exceptions.md R122). -/
def runCommand (s : State) : Out :=
  match decodeCmd s.lCmd with
  | .command i => exec i s
  | .illegal _ => engineStep s

/-- The action whose turn it is. -/
def takeTurn (s : State) : Out :=
  match s.turns with
  | .host :: rest   => .next (hostTurn { s with turns := rest })
  | .engine :: rest => engineStep { s with turns := rest }
  | .reset :: rest  => .next (State.resetEdge { s with turns := rest })
  | []              => if s.busy then runCommand s else .next (hostTurn s)

/-- A machine takes its turn only in a configuration of 00_scope.md R7; "a model refuses" any other (R8). -/
def guarded (s : State) : Out :=
  if s.cfg.wf then takeTurn s else .refused .badConfig

/-- What a command's word leaves for the engine: accept of `w` (10_state.md R22) with no other turn before the engine's. -/
def State.launch (s : State) (w : Word) : State := { s.accept w with turns := [] }

end Sys2Proof.Machine
end

