-- ==== Sys2Proof/Machine/Step.lean ====
section
/-! DEFINITION. One step of the machine. -/
namespace Sys2Proof.Machine

/-- One step: the action whose turn it is (Machine/Schedule.lean). -/
def step (s : State) : Host.Outcome State Fault Refusal := guarded s

/-- The state in which the next step runs the command whose word is `w`: the one that accept of `w` leaves (10_state.md
R22; 20_memory.md R66: "A command is the CMD word latched at accept"), with no other turn before the engine's (log 7). -/
def State.withFetchWord (s : State) (nbits w : Nat) : State := s.launch (BitVec.ofNat 32 (w % 2 ^ nbits))

end Sys2Proof.Machine
end

