-- ==== Sys2Proof/Machine/Pins.lean ====
section
/-! DEFINITION. The cycle level over the pins (10_state.md R16; 70_reset_and_hazards.md R134, R143, R144). Informative in
the spec: "the transaction-level model admits every run this order gives". The machine's step is the transaction level. -/
namespace Sys2Proof.Machine

/-- The input pins at one rising edge of clk (10_state.md R16). -/
structure Pins where
  rst    : Bool
  hSel   : Bool
  hWe    : Bool
  hAddr  : Word
  hWdata : Word
  deriving DecidableEq, Repr

/-- The host access of an edge, if h_sel = 1 (10_state.md R16). -/
def Pins.access (p : Pins) (s : State) : State :=
  if p.hSel then transact ⟨p.hWe, p.hAddr, p.hWdata⟩ s else s

/-- One rising edge: reset wins and a host access at the same edge has no effect (R134); otherwise the host access,
then one engine step if PHASE ≠ IDLE when the edge came (R143, R144: an accepted command's CHECK comes no earlier than
the next edge). -/
def clockEdge (p : Pins) (s : State) : Out :=
  if p.rst then .next s.resetEdge
  else if s.busy then engineStep (p.access s) else .next (p.access s)

end Sys2Proof.Machine
end

