-- ==== Sys2Proof/Machine/CodecFn.lean ====
section
/-! DEFINITION. DecodeFn and EncodeFn, "the complete meaning" of the two commands as pure functions on a local pool
(41_decode.md R90, 42_encode.md R105). The engine's steps are written apart from them; that the two agree (R103, R116)
is a claim, not a definition. -/
namespace Sys2Proof.Machine

/-- Pad stripping (41_decode.md R92): from the range `t[0 .. e-1]`, remove trailing `=` while fewer than `6` have been
removed (`fuel` more may be) and the range is not empty. -/
def stripPads (t : List Byte) : (fuel e : Nat) → Nat
  | 0, e => e
  | _ + 1, 0 => 0
  | fuel + 1, e + 1 => if t[e]? = some padCode then stripPads t fuel e else e + 1

/-- The end of the active range (41_decode.md R92, R93). -/
def activeLength (t : List Byte) (pad : Bool) : Nat := if pad then stripPads t 6 t.length else t.length

/-- The walk of DecodeFn (41_decode.md R90, R94, R95): the pool and the bytes after the characters, or no value. -/
def decodeWalk (p : Pool) (out : List Byte) : List Byte → Option (Pool × List Byte)
  | [] => some (p, out)
  | c :: cs =>
    match rlut c with
    | none => none
    | some v =>
      let q := p.push v
      if q.holds 8 then decodeWalk (q.pop 8) (out ++ [q.top 8]) cs else decodeWalk q out cs

/-- `DecodeFn(t, pad)` (41_decode.md R90); `none` is NOVALUE. -/
def decodeFn (t : List Byte) (pad : Bool) : Option (List Byte) :=
  if pad ∧ t.length % 8 ≠ 0 then none
  else
    match decodeWalk .empty [] (t.take (activeLength t pad)) with
    | none => none
    | some (p, out) => if p.residueZero then some out else none

/-- `while CNT >= 5: out <- out ++ [ROM[POP(5)]]` (42_encode.md R105); CNT itself bounds the rounds. -/
def drainQuintets : (fuel : Nat) → Pool → List Byte → Pool × List Byte
  | 0, p, out => (p, out)
  | fuel + 1, p, out =>
    if p.holds 5 then drainQuintets fuel (p.pop 5) (out ++ [rom (p.top 5)]) else (p, out)

/-- The walk of EncodeFn (42_encode.md R105, R107). -/
def encodeWalk (p : Pool) (out : List Byte) : List Byte → Pool × List Byte
  | [] => (p, out)
  | b :: bs =>
    let q := p.push b
    let r := drainQuintets q.cnt.toNat q out
    encodeWalk r.1 r.2 bs

/-- `EncodeFn(b, pad)` (42_encode.md R105): walk, final partial quintet (R108), padding (R109). -/
def encodeFn (b : List Byte) (pad : Bool) : List Byte :=
  let r := encodeWalk .empty [] b
  let symbols := if r.1.holds 1 then r.2 ++ [rom r.1.flushed] else r.2
  if pad then symbols ++ List.replicate (outputChars b.length - symbols.length) padCode else symbols

end Sys2Proof.Machine
end

