-- ==== Sys2Proof/Machine/WidePool.lean ====
section
/-! DEFINITION. The source's own register: an unbounded natural that keeps stale bits at and above CNT (40_bitpool.md R87),
with DecodeFn and EncodeFn over it. R87 says that they give the same outputs as the 12-bit masked pool. -/
namespace Sys2Proof.Machine

/-- A pool of no fixed width whose popped bits stay (R87). -/
structure WidePool where
  bits : Nat
  cnt  : Nat
  deriving DecidableEq, Repr

/-- PUSH without truncation (R87, MT006 "shift the pool left … and OR in"). -/
def WidePool.push {n : Nat} (p : WidePool) (v : BitVec n) : WidePool := ⟨p.bits <<< n ||| v.toNat, p.cnt + n⟩

/-- POP's value, masked to `k` bits (R87: "The extraction must mask its result to k bits"). -/
def WidePool.top (p : WidePool) (k : Nat) : BitVec k := BitVec.ofNat k (p.bits >>> (p.cnt - k))

/-- POP that clears nothing (R87: "need not clear popped bits"). -/
def WidePool.pop (p : WidePool) (k : Nat) : WidePool := ⟨p.bits, p.cnt - k⟩

/-- RESIDUE_ZERO, masked to CNT bits (R87: "the residual test must mask to CNT bits"). -/
def WidePool.residueZero (p : WidePool) : Bool := p.bits &&& mask p.cnt == 0

/-- FLUSH5's value, masked to 5 bits (R85, R87). -/
def WidePool.flushed (p : WidePool) : BitVec 5 := BitVec.ofNat 5 (p.bits <<< (5 - p.cnt))

/-- DecodeFn's walk over the wide pool (41_decode.md R90). -/
def wideDecodeWalk (p : WidePool) (out : List Byte) : List Byte → Option (WidePool × List Byte)
  | [] => some (p, out)
  | c :: cs =>
    match rlut c with
    | none => none
    | some v =>
      let q := p.push v
      if 8 ≤ q.cnt then wideDecodeWalk (q.pop 8) (out ++ [q.top 8]) cs else wideDecodeWalk q out cs

/-- DecodeFn over the wide pool (41_decode.md R90, 40_bitpool.md R87). -/
def wideDecodeFn (t : List Byte) (pad : Bool) : Option (List Byte) :=
  if pad ∧ t.length % 8 ≠ 0 then none
  else
    match wideDecodeWalk ⟨0, 0⟩ [] (t.take (activeLength t pad)) with
    | none => none
    | some (p, out) => if p.residueZero then some out else none

/-- EncodeFn's inner loop over the wide pool (42_encode.md R105). -/
def wideDrain : (fuel : Nat) → WidePool → List Byte → WidePool × List Byte
  | 0, p, out => (p, out)
  | fuel + 1, p, out => if 5 ≤ p.cnt then wideDrain fuel (p.pop 5) (out ++ [rom (p.top 5)]) else (p, out)

/-- EncodeFn's walk over the wide pool (42_encode.md R105). -/
def wideEncodeWalk (p : WidePool) (out : List Byte) : List Byte → WidePool × List Byte
  | [] => (p, out)
  | b :: bs =>
    let q := p.push b
    let r := wideDrain q.cnt q out
    wideEncodeWalk r.1 r.2 bs

/-- EncodeFn over the wide pool (42_encode.md R105, 40_bitpool.md R87). -/
def wideEncodeFn (b : List Byte) (pad : Bool) : List Byte :=
  let r := wideEncodeWalk ⟨0, 0⟩ [] b
  let symbols := if 1 ≤ r.1.cnt then r.2 ++ [rom r.1.flushed] else r.2
  if pad then symbols ++ List.replicate (outputChars b.length - symbols.length) padCode else symbols

end Sys2Proof.Machine
end

