-- ==== Sys2Proof/Safety.lean ====
section
/-! DEFINITION. The terms that claims use: what a command's run produces (00_scope.md R11), when a claim about one command
starts (70_reset_and_hazards.md R150), bit streams (20_memory.md R58), and the invariant of the states a run reaches. -/
namespace Sys2Proof.Machine

/-! ### What a run reads and produces -/

/-- The input of the command in flight: IBUF[0 .. L_LEN-1] (30_encoding.md R72). -/
def State.input (s : State) : List Byte := (List.range s.lLen.toNat).map s.ibufByte

/-- OBUF[0 .. OUT_LEN-1] (00_scope.md R11). -/
def State.output (s : State) : List Byte := (List.range s.outLen.toNat).map s.obufByte

/-- "What a run produces is the triple (STATUS.RESULT, OUT_LEN, OBUF[0 .. OUT_LEN-1])" (00_scope.md R11). -/
def State.outcome (s : State) : Result × Word × List Byte := (s.result, s.outLen, s.output)

/-- R150 Loaded(b): IBUF[i] = b[i] for every i < len(b), and IN_LEN = len(b). -/
def Loaded (s : State) (b : List Byte) : Prop :=
  s.inLen.toNat = b.length ∧ (List.range b.length).map s.ibufByte = b

/-- The launch premises Idle, Loaded(b) and Config of R150, with an input that fits IBUF (60_exceptions.md R123). -/
def Launchable (s : State) (b : List Byte) : Prop :=
  s.phase = .idle ∧ Loaded s b ∧ s.cfg.wf = true ∧ b.length ≤ s.cfg.ibufDepth

/-- The block alone: every register and both buffers, without the pin h_rdata and the model's own fields that say what
the outside world does (draws, turns, script, reads). Two states with equal blocks differ in nothing the spec's rules
on registers and buffers speak of. -/
def State.block (s : State) : State := { s with hRdata := 0, draws := 0, turns := [], script := [], reads := [] }

/-- The first cause that applies, in the order of 60_exceptions.md R126, for the command word `w` on the input `t`. -/
def firstCause (ibufDepth : Nat) (w : Word) (t : List Byte) : Result :=
  match decodeCmd w with
  | .illegal _ => .errCmd
  | .command i =>
    if ibufDepth < t.length then .errLen
    else
      match i with
      | .encode _ => .ok
      | .decode pad =>
        if pad ∧ t.length % 8 ≠ 0 then .novalue
        else if (t.take (activeLength t pad)).any (fun c => rlut c = none) then .novalue
        else if decodeFn t pad = none then .novalue
        else .ok

/-- The most engine steps a command takes on an input of length `len` (70_reset_and_hazards.md R145, R146). -/
def stepBound : Instr → Nat → Nat
  | .encode _, len => encodeStepBound len
  | .decode _, len => decodeStepBound len

/-- The turns of one clock edge (70_reset_and_hazards.md R134, R143, R144) on a block that is busy or not. -/
def edgeTurns (p : Pins) (busy : Bool) : List Turn :=
  if p.rst then [.reset] else (if p.hSel then [.host] else []) ++ (if busy then [.engine] else [])

/-- The host access of one clock edge as a script; a host access at an edge with rst = 1 has no effect (R134). -/
def edgeScript (p : Pins) : List HostOp :=
  if p.rst ∨ p.hSel = false then [] else if p.hWe then [.wr p.hAddr p.hWdata] else [.rd p.hAddr]

/-- The machine with `turns` as the only thing changed. -/
def State.withTurns (s : State) (ts : List Turn) : State := { s with turns := ts }

/-- `n` steps of the machine, stopping at the first fault or refusal. -/
def runSteps (n : Nat) (s : State) : Out :=
  match n with
  | 0 => .next s
  | k + 1 => andThen (step s) (runSteps k)

/-! ### Bit streams -/

/-- The low `n` bits of `x`, most significant first (20_memory.md R58). -/
def bitsMsb : Nat → Nat → List Bool
  | 0, _ => []
  | n + 1, x => x.testBit n :: bitsMsb n x

/-- The valid bits of a pool, oldest first (40_bitpool.md R81). -/
def Pool.stream (p : Pool) : List Bool := bitsMsb p.cnt.toNat p.bits.toNat

/-- The stream of a byte sequence, MSB first. -/
def byteStream (b : List Byte) : List Bool := b.flatMap (fun v => bitsMsb 8 v.toNat)

/-- The stream of a sequence of symbol values, MSB first. -/
def symbolStream (q : List (BitVec 5)) : List Bool := q.flatMap (fun v => bitsMsb 5 v.toNat)

/-! ### The invariant -/

/-- The pool invariant (40_bitpool.md R81): 0 ≤ CNT ≤ 12 and POOL < 2^CNT. -/
def Pool.Ok (p : Pool) : Prop := p.cnt.toNat ≤ 12 ∧ p.bits.toNat < 2 ^ p.cnt.toNat

/-- Which STATUS combinations can occur (10_state.md R21), and where OUT_LEN is 0 (10_state.md R26). -/
def StatusOk (s : State) : Prop :=
  (s.phase ≠ .idle → s.done = false ∧ s.result = .none)
    ∧ (s.phase = .idle → (s.done = false ∧ s.result = .none ∧ s.drop = false) ∨ (s.done = true ∧ s.result ≠ .none))
    ∧ (s.result ≠ .ok → s.outLen = 0)

/-- A DECODE past CHECK: its word, the legal length, the active range and the counts of 40_bitpool.md R88. -/
def Decoding (s : State) : Prop :=
  ∃ pad, decodeCmd s.lCmd = .command (.decode pad) ∧ s.lLen.toNat ≤ s.cfg.ibufDepth
    ∧ s.aend.toNat + s.nstrip.toNat = s.lLen.toNat ∧ s.ipos.toNat ≤ s.aend.toNat
    ∧ 8 * s.opos.toNat + s.pool.cnt.toNat = 5 * s.ipos.toNat ∧ s.pool.cnt.toNat ≤ 7

/-- An ENCODE past CHECK: its word, the legal length, ETOTAL, and the counts of 40_bitpool.md R88. -/
def Encoding (s : State) : Prop :=
  ∃ pad, decodeCmd s.lCmd = .command (.encode pad) ∧ s.lLen.toNat ≤ s.cfg.ibufDepth
    ∧ s.etotal.toNat = encodedLength pad s.lLen.toNat ∧ s.ipos.toNat ≤ s.lLen.toNat
    ∧ 5 * s.opos.toNat + s.pool.cnt.toNat = 8 * s.ipos.toNat

/-- What holds in each phase (10_state.md R30, R31). -/
def PhaseOk (s : State) : Prop :=
  match s.phase with
  | .idle   => True
  | .check  => s.pool = .empty ∧ s.ipos = 0 ∧ s.opos = 0 ∧ s.aend = 0 ∧ s.nstrip = 0 ∧ s.etotal = 0
  | .dStrip => Decoding s ∧ s.lLen.toNat % 8 = 0 ∧ s.lPad = true ∧ s.ipos = 0
  | .dWalk  => Decoding s
  | .dResid => Decoding s ∧ s.ipos = s.aend
  | .eWalk  => Encoding s ∧ s.pool.cnt.toNat ≤ 4
  | .eEmit  => Encoding s
  | .eFlush => Encoding s ∧ s.pool.cnt.toNat ≤ 4 ∧ s.ipos = s.lLen
  | .ePad   =>
    ∃ pad, decodeCmd s.lCmd = .command (.encode pad) ∧ s.lLen.toNat ≤ s.cfg.ibufDepth
      ∧ s.etotal.toNat = encodedLength pad s.lLen.toNat ∧ s.pool = .empty
      ∧ quintets s.lLen.toNat ≤ s.opos.toNat ∧ s.opos.toNat ≤ s.etotal.toNat

/-- The buffers' canonical form, within their depths. -/
def BuffersOk (s : State) : Prop :=
  s.ibuf.wf = true ∧ s.ibuf.below s.cfg.ibufDepth = true ∧ s.obuf.wf = true ∧ s.obuf.below s.cfg.obufDepth = true

/-- The invariant of the states a run reaches: a configuration of 00_scope.md R7, canonical buffers, R81, R21, NSTRIP's
legal values (10_state.md R32) and what each phase means. -/
def Inv (s : State) : Prop :=
  s.cfg.wf = true ∧ BuffersOk s ∧ s.pool.Ok ∧ StatusOk s ∧ s.nstrip.toNat ≤ 6 ∧ PhaseOk s

end Sys2Proof.Machine
end

