-- ==== Sys2Proof/Certificates/Slice0/Obligations.lean ====
section
/-! DEFINITION. The statements for the provers: the numbered rules of spec/ that say what B32CODEC does. -/

open Sys2Proof Sys2Proof.Machine

/-! ### Encoding (30_encoding.md, opcode_table.json) -/

/-- Sanity: the words of R68, and reserved words of 95_test_vectors.md section 2.6, decode as R67 to R70 say. -/
def Obligations.TableWordsDecodeAsWritten : Prop :=
  decodeTableWord 32 0x00000001 = some (.encode false) ∧ decodeTableWord 32 0x00000005 = some (.encode true)
    ∧ decodeTableWord 32 0x00000002 = some (.decode false) ∧ decodeTableWord 32 0x00000006 = some (.decode true)
    ∧ decodeTableWord 32 0x00000000 = none ∧ decodeTableWord 32 0x00000003 = none
    ∧ decodeTableWord 32 0x00000009 = none ∧ decodeTableWord 32 0x80000001 = none

/-- R68: "The four legal command words are the only legal encodings." A word decodes to a command exactly when it is
that command's word, and those words are the four of the table. -/
def Obligations.FourWordsAreTheOnlyEncodings : Prop :=
  (∀ (w : Word) (i : Instr), decodeCmd w = .command i ↔ w = encode i)
    ∧ encode (.encode false) = 0x00000001 ∧ encode (.encode true) = 0x00000005
    ∧ encode (.decode false) = 0x00000002 ∧ encode (.decode true) = 0x00000006

/-- Decode and encode agree: every well-formed command's word decodes to it, with either value of P. -/
def Obligations.DecodeOfEncodeIsTheCommand : Prop :=
  ∀ i : Instr, i.wellFormed = true → decodeCmd (encode i) = .command i

/-- R69, R70: every word with RSV ≠ 0, or with OP = 0b00 or 0b11, is illegal, and no other word is. -/
def Obligations.ReservedWordsAreExactlyTheIllegalOnes : Prop :=
  ∀ w : Word, (∃ why, decodeCmd w = .illegal why) ↔ (w.toNat / 8 ≠ 0 ∨ w.toNat % 4 = 0 ∨ w.toNat % 4 = 3)

/-! ### Alphabet (20_memory.md) -/

/-- R54, R55: RLUT finds exactly the position of a code in the ROM, and by R55's ranges ("Equivalently"). -/
def Obligations.ReverseLookupInvertsTheRom : Prop :=
  (∀ (c : Byte) (v : BitVec 5), rlut c = some v ↔ rom v = c) ∧ ∀ c : Byte, rlut c = rlutByRange c

/-- R54, R57: no ROM entry is the pad code, and `RLUT(0x3D) = (0, 0)`. -/
def Obligations.PadCodeIsNoSymbol : Prop := (∀ v : BitVec 5, rom v ≠ 0x3D) ∧ rlut 0x3D = none ∧ padCode = 0x3D

/-! ### Bit pool (40_bitpool.md) -/

/-- R82: PUSH(v, n) under its precondition, for n = 5 and n = 8, and R81's invariant after it. -/
def Obligations.PushAppendsBelow : Prop :=
  ∀ (n : Nat) (p : Pool) (v : BitVec n), (n = 5 ∨ n = 8) → p.Ok → p.cnt.toNat + n ≤ 12 →
    (p.push v).bits.toNat = p.bits.toNat * 2 ^ n + v.toNat ∧ (p.push v).cnt.toNat = p.cnt.toNat + n ∧ (p.push v).Ok

/-- R83: POP(k) under its precondition, for k = 5 and k = 8: the popped value and what stays are the pool's two parts
("no information is lost"), and R81's invariant holds after it. -/
def Obligations.PopTakesTheOldestBits : Prop :=
  ∀ (k : Nat) (p : Pool), (k = 5 ∨ k = 8) → p.Ok → k ≤ p.cnt.toNat →
    p.bits.toNat = (p.top k).toNat * 2 ^ (p.cnt.toNat - k) + (p.pop k).bits.toNat
      ∧ (p.pop k).cnt.toNat = p.cnt.toNat - k ∧ (p.pop k).Ok

/-- R84, R85: RESIDUE_ZERO equals POOL = 0 under R81; FLUSH5 returns the 1 to 4 remaining bits above zero bits. -/
def Obligations.ResidueTestAndFlush : Prop :=
  ∀ p : Pool, p.Ok →
    (p.residueZero = true ↔ p.bits = 0)
      ∧ (1 ≤ p.cnt.toNat → p.cnt.toNat ≤ 4 → p.flushed.toNat = p.bits.toNat * 2 ^ (5 - p.cnt.toNat))

/-- R88's stream law, one operation at a time: PUSH appends its bits to the pool's stream; POP splits the stream; FLUSH5
returns the rest of the stream and zero bits. -/
def Obligations.PoolIsABitStream : Prop :=
  ∀ p : Pool, p.Ok →
    (∀ (n : Nat) (v : BitVec n), p.cnt.toNat + n ≤ 12 → (p.push v).stream = p.stream ++ bitsMsb n v.toNat)
      ∧ (∀ k, k ≤ p.cnt.toNat → p.stream = bitsMsb k (p.top k).toNat ++ (p.pop k).stream)
      ∧ (p.cnt.toNat ≤ 5 → bitsMsb 5 p.flushed.toNat = p.stream ++ List.replicate (5 - p.cnt.toNat) false)

/-! ### Host accesses (10_state.md, 20_memory.md) -/

/-- R43, R44, R45: what each word address selects, in the terms of R43's table. -/
def Obligations.AddressMapSelectsAsTabulated : Prop :=
  ∀ (cfg : Config) (a : Word), cfg.wf = true →
    target cfg a =
      if a.toNat = 0 then .cmd
      else if a.toNat = 1 then .status
      else if a.toNat = 2 then .inLen
      else if a.toNat = 3 then .outLen
      else if 0x10000000 ≤ a.toNat ∧ a.toNat < 0x10000000 + cfg.ibufDepth then .ibuf (a.toNat - 0x10000000)
      else if 0x20000000 ≤ a.toNat ∧ a.toNat < 0x20000000 + cfg.obufDepth then .obuf (a.toNat - 0x20000000)
      else .unmapped

/-- R22: accept, every register it writes, and nothing else of the block. -/
def Obligations.AcceptLatchesTheCommand : Prop :=
  ∀ (s : State) (v : Word), s.phase = .idle →
    (hostWrite cmdAddr v s).block =
      State.block { s with
        lCmd := v, lLen := s.inLen, done := false, drop := false, result := .none, outLen := 0, pool := ⟨0, 0⟩
        ipos := 0, opos := 0, aend := 0, nstrip := 0, etotal := 0, phase := .check }

/-- R23, R139: while BUSY a write to CMD, IN_LEN or an IBUF entry changes nothing of the block but DROP, which is set. -/
def Obligations.WritesWhileBusyAreDiscarded : Prop :=
  ∀ (s : State) (a v : Word), s.phase ≠ .idle →
    (target s.cfg a = .cmd ∨ target s.cfg a = .inLen ∨ ∃ i, target s.cfg a = .ibuf i) →
    (hostWrite a v s).block = State.block { s with drop := true }

/-- R25: an IN_LEN write while IDLE stores all 32 bits, whatever their value, and changes nothing else of the block; a
read returns the stored value. -/
def Obligations.InLenIsAPlainRegister : Prop :=
  ∀ (s : State) (v : Word),
    (s.phase = .idle → (hostWrite inLenAddr v s).block = State.block { s with inLen := v })
      ∧ hostReadValue inLenAddr s = s.inLen

/-- R46: the whole IBUF write rule, with every other entry and the rest of the block unchanged. -/
def Obligations.IbufWriteStoresOneEntry : Prop :=
  ∀ (s : State) (i v : Word), s.cfg.wf = true → i.toNat < s.cfg.ibufDepth →
    (s.phase = .idle →
      (hostWrite (ibufAddr i) v s).ibufByte i.toNat = v.extractLsb 7 0
        ∧ (∀ j, j ≠ i.toNat → (hostWrite (ibufAddr i) v s).ibufByte j = s.ibufByte j)
        ∧ State.block { hostWrite (ibufAddr i) v s with ibuf := s.ibuf } = s.block)
      ∧ (s.phase ≠ .idle → (hostWrite (ibufAddr i) v s).block = State.block { s with drop := true })

/-- R45 and the read-only registers of R20 and R26, and the OBUF window of R48: the write is ignored. -/
def Obligations.IgnoredWritesChangeNothing : Prop :=
  ∀ (s : State) (a v : Word),
    (target s.cfg a = .unmapped ∨ target s.cfg a = .status ∨ target s.cfg a = .outLen
      ∨ ∃ i, target s.cfg a = .obuf i) → hostWrite a v s = s

/-- R45: which addresses are unmapped, and that there a write changes nothing at all and a read returns 0. -/
def Obligations.UnmappedAddressesAreInert : Prop :=
  ∀ (s : State) (a v : Word), s.cfg.wf = true →
    ((3 < a.toNat ∧ a.toNat < 0x10000000)
      ∨ (0x10000000 + s.cfg.ibufDepth ≤ a.toNat ∧ a.toNat < 0x20000000)
      ∨ (0x20000000 + s.cfg.obufDepth ≤ a.toNat ∧ a.toNat < 0x30000000) ∨ 0x30000000 ≤ a.toNat) →
    hostWrite a v s = s ∧ hostReadValue a s = 0

/-- R16, R19, R26, R47, R48: what a host read returns at each mapped address whose value the spec states, and that the
value returned is what h_rdata holds after the read. -/
def Obligations.HostReadsReturnTheStoredValues : Prop :=
  ∀ (s : State) (i : Word), s.cfg.wf = true →
    hostReadValue cmdAddr s = 0 ∧ hostReadValue statusAddr s = s.status ∧ hostReadValue outLenAddr s = s.outLen
      ∧ (i.toNat < s.cfg.ibufDepth → (hostReadValue (ibufAddr i) s).toNat = (s.ibufByte i.toNat).toNat)
      ∧ (i.toNat < s.cfg.obufDepth → s.phase = .idle →
          (hostReadValue (obufAddr i) s).toNat = (s.obufByte i.toNat).toNat)
      ∧ ∀ a, (hostRead a s).hRdata = hostReadValue a s

/-- R63: "No host read has a side effect. Every read is idempotent and may be repeated." Nothing of the block changes,
and after it every address reads as before, but for the unspecified OBUF reads while BUSY (R48). -/
def Obligations.HostReadsHaveNoSideEffect : Prop :=
  ∀ (s : State) (a b : Word),
    (hostRead a s).block = s.block
      ∧ (((∃ i, target s.cfg b = .obuf i) → s.phase = .idle) → hostReadValue b (hostRead a s) = hostReadValue b s)

/-- R20, R27, R119: the STATUS word, bit by bit, the RESULT codes by number, and done_o. -/
def Obligations.StatusWordHasItsFields : Prop :=
  ∀ s : State,
    (s.status.getLsbD 0 = true ↔ s.phase ≠ .idle) ∧ s.status.getLsbD 1 = s.done ∧ s.status.getLsbD 2 = s.drop
      ∧ s.status.getLsbD 3 = false
      ∧ s.status.extractLsb 7 4 =
          (match s.result with
            | .none => 0#4
            | .ok => 1#4
            | .novalue => 2#4
            | .errCmd => 3#4
            | .errLen => 4#4)
      ∧ s.status.toNat < 256 ∧ s.doneO = s.status.getLsbD 1

/-- R21: in every state the invariant holds of, STATUS is one of the words its combinations allow. -/
def Obligations.StatusCombinationsAreThoseOfR21 : Prop :=
  ∀ s : State, Inv s →
    s.status.toNat ∈ [0x00, 0x01, 0x05, 0x12, 0x16, 0x22, 0x26, 0x32, 0x36, 0x42, 0x46]
      ∧ (s.phase ≠ .idle → s.outLen = 0)

/-! ### Engine steps (41_decode.md, 42_encode.md, 60_exceptions.md) -/

/-- R124: CHECK, for every word and length, in every state where it is the next engine step. -/
def Obligations.CheckJudgesTheCommand : Prop :=
  ∀ s : State, s.phase = .check →
    engineStep s = .next
      (match decodeCmd s.lCmd with
        | .illegal _ => s.finish .errCmd
        | .command i =>
          if s.cfg.ibufDepth < s.lLen.toNat then s.finish .errLen
          else
            match i with
            | .decode pad =>
              if pad = true ∧ s.lLen.toNat % 8 ≠ 0 then s.finish .novalue
              else { s with aend := s.lLen, phase := if pad then .dStrip else .dWalk }
            | .encode pad =>
              { s with
                etotal := BitVec.ofNat 32
                  (if pad then 8 * ((s.lLen.toNat + 4) / 5) else (8 * s.lLen.toNat + 4) / 5)
                phase := .eWalk })

/-- R125 with R141: what FINISH(r) writes and what it leaves. For r ≠ NOVALUE nothing of the block changes but RESULT,
DONE, PHASE and OUT_LEN. For r = NOVALUE the same, and every OBUF entry at or beyond floor(5·L/8) keeps its value. -/
def Obligations.FinishRecordsTheResult : Prop :=
  ∀ (s : State) (r : Result),
    (r ≠ .novalue →
      (s.finish r).block =
        State.block { s with
          result := r, done := true, phase := .idle, outLen := if r = .ok then s.outLen else 0 })
      ∧ State.block { s.finish .novalue with obuf := s.obuf } =
          State.block { s with result := .novalue, done := true, phase := .idle, outLen := 0 }
      ∧ ∀ j, 5 * s.lLen.toNat / 8 ≤ j → (s.finish .novalue).obufByte j = s.obufByte j

/-- R100: D_STRIP, in every state the invariant holds of. -/
def Obligations.StripStepTakesOnePadSymbol : Prop :=
  ∀ s : State, Inv s → s.phase = .dStrip →
    engineStep s = .next
      (if s.nstrip.toNat < 6 ∧ 0 < s.aend.toNat ∧ s.ibufByte (s.aend.toNat - 1) = 0x3D then
        { s with aend := s.aend - 1, nstrip := s.nstrip + 1 }
      else { s with phase := .dWalk })

/-- R101: D_WALK, in every state the invariant holds of: it never faults, and does what the rule's branches say. -/
def Obligations.WalkStepDecodesOneCharacter : Prop :=
  ∀ s : State, Inv s → s.phase = .dWalk →
    engineStep s = .next
      (if s.ipos = s.aend then { s with phase := .dResid }
      else
        match rlut (s.ibufByte s.ipos.toNat) with
        | none => s.finish .novalue
        | some v =>
          if 8 ≤ (s.pool.push v).cnt.toNat then
            { s with
              pool := (s.pool.push v).pop 8, ipos := s.ipos + 1
              obuf := s.obuf.store s.opos.toNat ((s.pool.push v).top 8), opos := s.opos + 1 }
          else { s with pool := s.pool.push v, ipos := s.ipos + 1 })

/-- R102: D_RESID, in every state. -/
def Obligations.ResidualBitsDecideTheVerdict : Prop :=
  ∀ s : State, s.phase = .dResid → s.pool.Ok →
    engineStep s = .next
      (if s.pool.bits = 0 then State.finish { s with outLen := s.opos } .ok else s.finish .novalue)

/-- R112, R113: E_WALK and E_EMIT, in every state the invariant holds of. -/
def Obligations.EncodeWalkPushesAndEmits : Prop :=
  ∀ s : State, Inv s →
    (s.phase = .eWalk →
      engineStep s = .next
        (if s.ipos = s.lLen then { s with phase := .eFlush }
        else { s with pool := s.pool.push (s.ibufByte s.ipos.toNat), ipos := s.ipos + 1, phase := .eEmit }))
    ∧ (s.phase = .eEmit →
      engineStep s = .next
        (if 5 ≤ s.pool.cnt.toNat then
          { s with
            pool := s.pool.pop 5
            obuf := s.obuf.store s.opos.toNat (rom (s.pool.top 5)), opos := s.opos + 1 }
        else { s with phase := .eWalk }))

/-- R114, R115: E_FLUSH and E_PAD, in every state the invariant holds of. -/
def Obligations.EncodeFlushesAndPads : Prop :=
  ∀ s : State, Inv s →
    (s.phase = .eFlush →
      engineStep s = .next
        (if 1 ≤ s.pool.cnt.toNat then
          { s with
            pool := ⟨0, 0⟩, phase := .ePad
            obuf := s.obuf.store s.opos.toNat (rom s.pool.flushed), opos := s.opos + 1 }
        else { s with phase := .ePad }))
    ∧ (s.phase = .ePad →
      engineStep s = .next
        (if s.opos.toNat < s.etotal.toNat then
          { s with obuf := s.obuf.store s.opos.toNat 0x3D, opos := s.opos + 1 }
        else State.finish { s with outLen := s.opos } .ok))

/-! ### The two commands -/

/-- R103, and the completion of DECODE: from every state that meets R150's premises, with nothing assumed of STATUS,
OUT_LEN, the engine registers or OBUF, an accepted DECODE runs to FINISH and its outcome is DecodeFn's. -/
def Obligations.DecodeCommandComputesDecodeFn : Prop :=
  ∀ (s : State) (t : List Byte) (pad : Bool), Launchable s t →
    ∃ u, exec (.decode pad) (s.accept (encode (.decode pad))) = .next u
      ∧ u.phase = .idle ∧ u.done = true
      ∧ ((pad = true → t.length % 8 = 0) → u.aend.toNat = activeLength t pad)
      ∧ match decodeFn t pad with
        | some out => u.result = .ok ∧ u.outLen.toNat = out.length ∧ u.output = out
            ∧ u.outLen.toNat = 5 * u.aend.toNat / 8
        | none => u.result = .novalue ∧ u.outLen = 0

/-- R116, R111, and the completion of ENCODE: from every state that meets R150's premises, an accepted ENCODE runs to
FINISH(OK) and its output is EncodeFn's. -/
def Obligations.EncodeCommandComputesEncodeFn : Prop :=
  ∀ (s : State) (b : List Byte) (pad : Bool), Launchable s b →
    ∃ u, exec (.encode pad) (s.accept (encode (.encode pad))) = .next u
      ∧ u.phase = .idle ∧ u.done = true ∧ u.result = .ok
      ∧ u.outLen.toNat = (encodeFn b pad).length ∧ u.output = encodeFn b pad

/-- R123: for either command, CHECK finishes with ERR_LEN when L_LEN > IBUF_DEPTH; nothing of the block changes but
RESULT, DONE, PHASE and OUT_LEN. -/
def Obligations.OverlongInputIsErrLen : Prop :=
  ∀ (s : State) (i : Instr), s.phase = .check → s.cfg.ibufDepth < s.lLen.toNat →
    ∃ u, exec i s = .next u
      ∧ u.block = State.block { s with result := .errLen, done := true, phase := .idle, outLen := 0 }

/-- R122: a step at CHECK with an illegal L_CMD finishes with ERR_CMD, and nothing of the block changes but RESULT, DONE,
PHASE and OUT_LEN. -/
def Obligations.IllegalWordIsErrCmd : Prop :=
  ∀ (s : State) (why : IllegalWord), s.cfg.wf = true → s.turns = [] → s.phase = .check →
    decodeCmd s.lCmd = .illegal why →
    ∃ u, step s = .next u
      ∧ u.block = State.block { s with result := .errCmd, done := true, phase := .idle, outLen := 0 }

/-- R126: the first cause that applies, in the rule's order, is the result of the accepted word. -/
def Obligations.FirstCauseInR126OrderWins : Prop :=
  ∀ (s : State) (w : Word) (t : List Byte), s.phase = .idle → s.cfg.wf = true → Loaded s t →
    ∃ u, runCommand (s.accept w) = .next u ∧ u.phase = .idle ∧ u.result = firstCause s.cfg.ibufDepth w t

/-- The frame of both commands (R52, R141, R125, 10_state.md R25, R28): an ENCODE or DECODE that answers a next state
leaves IBUF, IN_LEN, DROP, the latched command, the configuration and the outside world as they were, whatever the state;
and, in the states the invariant holds of, once it has finished, OBUF at every index it does not write: at and beyond
OUT_LEN after OK, at and beyond floor(5·L/8) after NOVALUE, and everywhere after a contract error. -/
def Obligations.CommandFrame : Prop :=
  ∀ (s u : State) (i : Instr), exec i s = .next u →
    (u.ibuf = s.ibuf ∧ u.inLen = s.inLen ∧ u.drop = s.drop ∧ u.lCmd = s.lCmd ∧ u.lLen = s.lLen ∧ u.cfg = s.cfg
      ∧ u.hRdata = s.hRdata ∧ u.resets = s.resets ∧ u.turns = s.turns ∧ u.script = s.script ∧ u.reads = s.reads)
    ∧ (Inv s → s.phase ≠ .idle → decodeCmd s.lCmd = .command i →
        (u.result = .ok → ∀ j, u.outLen.toNat ≤ j → u.obufByte j = s.obufByte j)
        ∧ (u.result = .novalue → ∀ j, 5 * s.lLen.toNat / 8 ≤ j → u.obufByte j = s.obufByte j)
        ∧ (u.result = .errLen → ∀ j, u.obufByte j = s.obufByte j))

/-- R145 to R147: from every busy state the invariant holds of, the engine reaches FINISH within the bound, with no host
access needed. -/
def Obligations.EveryCommandFinishesWithinItsBound : Prop :=
  ∀ (s : State) (i : Instr), Inv s → s.phase ≠ .idle → decodeCmd s.lCmd = .command i →
    ∃ u, engineRun (.command i) (stepBound i s.lLen.toNat) s = .next u
      ∧ u.phase = .idle ∧ u.done = true ∧ u.result ≠ .none

/-! ### The two functions (41_decode.md R90, 42_encode.md R105) -/

/-- R116, "Round trip": `Decode(Encode(B, p), p) == B`. -/
def Obligations.DecodeInvertsEncode : Prop :=
  ∀ (b : List Byte) (pad : Bool), decodeFn (encodeFn b pad) pad = some b

/-- R116, "Length law", with R106's sizes. -/
def Obligations.EncodedLengthLaw : Prop :=
  ∀ b : List Byte,
    (encodeFn b true).length = 8 * ((b.length + 4) / 5) ∧ (encodeFn b false).length = (8 * b.length + 4) / 5
      ∧ outputChars b.length = 8 * ((b.length + 4) / 5)

/-- R97: "Output byte count is exactly `floor(activeLength * 5 / 8)`". -/
def Obligations.DecodedLengthLaw : Prop :=
  ∀ (t out : List Byte) (pad : Bool), decodeFn t pad = some out → out.length = 5 * activeLength t pad / 8

/-- R58, R107, R108: the data symbols of an encoding are the ROM codes of the input's bits, MSB first, in groups of five,
with fewer than five zero bits at the end; with padding the same symbols followed by pad codes only (R109). -/
def Obligations.EncodingIsTheBitStreamInQuintets : Prop :=
  ∀ b : List Byte, ∃ (q : List (BitVec 5)) (r n : Nat),
    encodeFn b false = q.map rom ∧ encodeFn b true = q.map rom ++ List.replicate n padCode ∧ n < 8
      ∧ symbolStream q = byteStream b ++ List.replicate r false ∧ r < 5

/-- R94, R96, R99: DecodeFn gives a value exactly when the length check passes, every active character is an alphabet
character, and the symbols' bits, MSB first, are those of the output followed by fewer than eight bits, all zero. -/
def Obligations.DecodingIsTheBitStreamInBytes : Prop :=
  ∀ (t out : List Byte) (pad : Bool),
    decodeFn t pad = some out ↔
      (pad = true → t.length % 8 = 0)
        ∧ ∃ (q : List (BitVec 5)) (r : Nat),
            t.take (activeLength t pad) = q.map rom
              ∧ symbolStream q = byteStream out ++ List.replicate r false ∧ r < 8

/-- R92, R93: pad stripping removes trailing `=` only, at most 6, and stops only at 6, at the empty range or at another
character; without padding the active range is the entire input. -/
def Obligations.PadStrippingRemovesTrailingPads : Prop :=
  ∀ t : List Byte,
    activeLength t false = t.length
      ∧ activeLength t true ≤ t.length ∧ t.length ≤ activeLength t true + 6
      ∧ (∀ j, activeLength t true ≤ j → j < t.length → t[j]? = some 0x3D)
      ∧ (t.length = activeLength t true + 6 ∨ activeLength t true = 0
          ∨ t[activeLength t true - 1]? ≠ some 0x3D)

/-- R98: the active range of an input that passes the length check is empty exactly when L = 0, and then DECODE succeeds
with no bytes, in either mode. -/
def Obligations.EmptyRangeDecodesToNothing : Prop :=
  (∀ (t : List Byte) (pad : Bool), (pad = true → t.length % 8 = 0) → (activeLength t pad = 0 ↔ t = []))
    ∧ ∀ pad, decodeFn [] pad = some []

/-- R87: a pool of no fixed width that keeps its stale bits gives the same outputs and verdicts. -/
def Obligations.UnmaskedPoolGivesTheSameOutputs : Prop :=
  (∀ (t : List Byte) (pad : Bool), wideDecodeFn t pad = decodeFn t pad)
    ∧ ∀ (b : List Byte) (pad : Bool), wideEncodeFn b pad = encodeFn b pad

/-! ### The machine -/

/-- R36: every register at reset. (The configuration, the buffers' lists and the model's own fields are the model's
choices, logs 1, 2 and 6, and are not stated here.) -/
def Obligations.ResetValuesAreThoseOfR36 : Prop :=
  State.reset.busy = false ∧ State.reset.done = false ∧ State.reset.drop = false ∧ State.reset.result = .none
    ∧ State.reset.inLen = 0 ∧ State.reset.outLen = 0 ∧ State.reset.doneO = false ∧ State.reset.hRdata = 0
    ∧ State.reset.phase = .idle ∧ State.reset.lCmd = 0 ∧ State.reset.lLen = 0 ∧ State.reset.pool = ⟨0, 0⟩
    ∧ State.reset.ipos = 0 ∧ State.reset.opos = 0 ∧ State.reset.aend = 0 ∧ State.reset.nstrip = 0
    ∧ State.reset.etotal = 0

/-- R134, R135: at a reset turn, whatever PHASE held, every register takes its value of R36, and every entry of both
buffers is the free value the new reset draws (log 2). -/
def Obligations.ResetTurnResetsEveryRegister : Prop :=
  ∀ (s : State) (rest : List Turn), s.cfg.wf = true → s.turns = .reset :: rest →
    ∃ u, step s = .next u
      ∧ u.phase = .idle ∧ u.status = 0 ∧ u.inLen = 0 ∧ u.outLen = 0 ∧ u.doneO = false ∧ u.hRdata = 0
      ∧ u.lCmd = 0 ∧ u.lLen = 0 ∧ u.pool = ⟨0, 0⟩ ∧ u.ipos = 0 ∧ u.opos = 0 ∧ u.aend = 0 ∧ u.nstrip = 0
      ∧ u.etotal = 0 ∧ u.cfg = s.cfg ∧ u.turns = rest
      ∧ ∀ i, u.ibufByte i = Config.ibufAtReset (s.resets + 1) i ∧ u.obufByte i = Config.obufAtReset (s.resets + 1) i

/-- A step runs the decoded instruction: with no other turn first (log 6), a step of a busy block is exec of the
instruction its latched word decodes to; a host turn is one access; an engine turn is one engine step. -/
def Obligations.StepRunsTheDecodedCommand : Prop :=
  ∀ s : State, s.cfg.wf = true →
    (∀ i, s.turns = [] → s.phase ≠ .idle → decodeCmd s.lCmd = .command i → step s = exec i s)
      ∧ (s.turns = [] → s.phase = .idle → step s = .next (hostTurn s))
      ∧ (∀ rest, s.turns = .host :: rest → step s = .next (hostTurn (s.withTurns rest)))
      ∧ ∀ rest, s.turns = .engine :: rest → step s = engineStep (s.withTurns rest)

/-- The invariant holds right after reset. -/
def Obligations.ResetStateMeetsTheInvariant : Prop := Inv State.reset

/-- The invariant is kept by every step, from every state it holds of: host accesses, engine steps, whole commands and
resets, in any order. -/
def Obligations.EveryStepKeepsTheInvariant : Prop :=
  ∀ s u : State, Inv s → step s = .next u → Inv u

/-- R118, R49, R50, R86: in a state the invariant holds of, a step always answers a next state: no fault of the model is
ever raised, so no engine access is out of range and no primitive is called outside its precondition. -/
def Obligations.NoStepFaultsUnderTheInvariant : Prop :=
  ∀ s : State, Inv s → ∃ u, step s = .next u

/-- 92_eei_decisions.md D11: a command run as one action is the same command run one engine turn at a time. -/
def Obligations.CollapsedCommandIsItsEngineTurns : Prop :=
  ∀ (s : State) (i : Instr), s.cfg.wf = true → s.turns = [] → decodeCmd s.lCmd = .command i →
    runSteps (stepBound i s.lLen.toNat) (s.withTurns (List.replicate (stepBound i s.lLen.toNat) .engine)) = exec i s

/-- R143, R144 (informative): one clock edge over the pins is one interleaving of turns. -/
def Obligations.ClockEdgeIsOneInterleaving : Prop :=
  ∀ (p : Pins) (s : State), s.cfg.wf = true → s.turns = [] → s.script = [] →
    runSteps (edgeTurns p s.busy).length
        { s with turns := edgeTurns p s.busy, script := edgeScript p } = clockEdge p s

/-- R133: equal words, lengths and inputs give equal results, in states that may differ in everything else; and a host
access while the command runs changes nothing of its result. -/
def Obligations.ResultDependsOnTheInputAlone : Prop :=
  (∀ s t : State, Inv s → Inv t → s.phase = .check → t.phase = .check → s.cfg = t.cfg → s.lCmd = t.lCmd →
      s.lLen = t.lLen → s.input = t.input →
      ∃ u v, runCommand s = .next u ∧ runCommand t = .next v ∧ u.outcome = v.outcome)
    ∧ ∀ s : State, Inv s → s.phase ≠ .idle →
      ∃ u v, runCommand s = .next u ∧ runCommand (hostTurn s) = .next v ∧ u.outcome = v.outcome

/-- R23, R64, R66: while BUSY, a host turn changes nothing of the block but DROP, so it reaches no register or buffer that
the engine reads or writes. -/
def Obligations.HostTurnWhileBusyTouchesOnlyDrop : Prop :=
  ∀ s : State, s.phase ≠ .idle → (hostTurn s).block = State.block { s with drop := (hostTurn s).drop }

/-- R62, R142: "No engine result is visible before the FINISH step": an engine step that leaves the block busy changes
no value a host read returns, but for the unspecified OBUF reads of R48. -/
def Obligations.NothingIsVisibleBeforeFinish : Prop :=
  ∀ (s u : State) (a : Word), engineStep s = .next u → s.phase ≠ .idle → u.phase ≠ .idle →
    (∀ i, target s.cfg a ≠ .obuf i) → hostReadValue a u = hostReadValue a s

/-- R28, R66: while BUSY, no step but a reset changes the input, its length or the latched command: neither IBUF's written
entries nor the draw its other entries hold (log 2), so every entry. -/
def Obligations.InputIsFrozenWhileBusy : Prop :=
  ∀ s u : State, step s = .next u → s.phase ≠ .idle → s.turns.head? ≠ some .reset →
    u.ibuf = s.ibuf ∧ (∀ j, u.ibufByte j = s.ibufByte j) ∧ u.inLen = s.inLen ∧ u.lCmd = s.lCmd ∧ u.lLen = s.lLen
      ∧ u.resets = s.resets

/-- R24: "RESULT is written only by FINISH … and cleared only by accept … and reset." -/
def Obligations.ResultChangesOnlyAtFinishAcceptAndReset : Prop :=
  ∀ s u : State, step s = .next u → u.result ≠ s.result →
    (s.turns.head? = some .reset ∧ u.result = .none)
      ∨ (s.phase = .idle ∧ u.phase = .check ∧ u.result = .none)
      ∨ (s.phase ≠ .idle ∧ u.phase = .idle ∧ u.done = true ∧ u.result ≠ .none)

/-- R21: "DROP can only become 1 while BUSY = 1", by a host turn, and "stays 1 after FINISH until the next accept" or a
reset (R20). -/
def Obligations.DropIsSetOnlyByTheHostWhileBusy : Prop :=
  ∀ s u : State, step s = .next u →
    (s.drop = false → u.drop = true → s.phase ≠ .idle ∧ s.turns.head? = some .host)
      ∧ (s.drop = true → u.drop = false →
          s.turns.head? = some .reset ∨ (s.phase = .idle ∧ u.phase = .check))

/-- R52: no step changes OBUF, in its written entries or in what any entry holds, but an engine step of a running command
or a reset; no step but a reset draws the unwritten entries anew (log 2), and the configuration never changes. -/
def Obligations.OnlyTheEngineWritesObuf : Prop :=
  ∀ s u : State, step s = .next u →
    u.cfg = s.cfg
      ∧ (s.turns.head? ≠ some .reset → u.resets = s.resets)
      ∧ (u.obuf ≠ s.obuf ∨ (∃ j, u.obufByte j ≠ s.obufByte j) →
          s.turns.head? = some .reset ∨ (s.phase ≠ .idle ∧ s.turns.head? ≠ some .host))

/-- R75's LOADIN with R150's Loaded(b): from an idle block, the host's accesses of one LOADIN leave the block loaded with
the elements' low bytes and still idle, ready for a command. -/
def Obligations.LoadinLoadsTheInput : Prop :=
  ∀ (s : State) (es : List Word), s.cfg.wf = true → s.phase = .idle → s.turns = [] →
    s.script = expandStmt (.loadin es) → es.length ≤ s.cfg.ibufDepth →
    ∃ u : State, runSteps (es.length + 1) s = .next u
      ∧ Launchable u (es.map (fun e => e.extractLsb 7 0)) ∧ u.script = []
end

