-- ==== Sys2Proof/Laws/BitPool.lean ====
section
/-! SUPPORT. The bit pool's primitives as arithmetic on naturals, and that each keeps R81's invariant under its
precondition (40_bitpool.md R81 to R85). -/
namespace Sys2Proof.Machine

@[simp] theorem Pool.empty_bits : Pool.empty.bits = 0 := rfl
@[simp] theorem Pool.empty_cnt : Pool.empty.cnt = 0 := rfl

theorem Pool.empty_ok : Pool.empty.Ok := by simp [Pool.Ok]

theorem Pool.fits_iff {p : Pool} {n : Nat} : p.fits n = true ↔ p.cnt.toNat + n ≤ 12 := by simp [Pool.fits]

theorem Pool.holds_iff {p : Pool} {k : Nat} : p.holds k = true ↔ k ≤ p.cnt.toNat := by simp [Pool.holds]

/-- Shifting in below `n` fresh bits is multiplying by 2^n and adding. -/
theorem shiftIn_eq {a b n : Nat} (h : b < 2 ^ n) : a <<< n ||| b = a * 2 ^ n + b := by
  rw [← Nat.shiftLeft_add_eq_or_of_lt h, Nat.shiftLeft_eq]

theorem and_mask (a n : Nat) : a &&& mask n = a % 2 ^ n := by
  rw [mask, Nat.and_two_pow_sub_one_eq_mod]

/-! ### PUSH (R82) -/

theorem Pool.push_cnt {n : Nat} {p : Pool} (v : BitVec n) (h : p.cnt.toNat + n ≤ 12) :
    (p.push v).cnt.toNat = p.cnt.toNat + n := by
  simp only [Pool.push, BitVec.toNat_ofNat]
  omega

theorem Pool.push_bits_lt {n : Nat} {p : Pool} (v : BitVec n) (hp : p.Ok) :
    p.bits.toNat * 2 ^ n + v.toNat < 2 ^ (p.cnt.toNat + n) := by
  have h1 := hp.2
  have h2 := v.isLt
  rw [pow_add]
  nlinarith [Nat.mul_le_mul_right (2 ^ n) (Nat.succ_le_of_lt h1)]

theorem Pool.push_bits {n : Nat} {p : Pool} (v : BitVec n) (hp : p.Ok) (h : p.cnt.toNat + n ≤ 12) :
    (p.push v).bits.toNat = p.bits.toNat * 2 ^ n + v.toNat := by
  simp only [Pool.push, BitVec.toNat_ofNat]
  rw [shiftIn_eq v.isLt, Nat.mod_eq_of_lt]
  exact lt_of_lt_of_le (Pool.push_bits_lt v hp) (Nat.pow_le_pow_right (by decide) h)

theorem Pool.push_ok {n : Nat} {p : Pool} (v : BitVec n) (hp : p.Ok) (h : p.cnt.toNat + n ≤ 12) : (p.push v).Ok := by
  rw [Pool.Ok, Pool.push_cnt v h, Pool.push_bits v hp h]
  exact ⟨h, Pool.push_bits_lt v hp⟩

/-! ### POP (R83) -/

theorem Pool.pop_cnt {k : Nat} (p : Pool) : (p.pop k).cnt.toNat = p.cnt.toNat - k := by
  have := p.cnt.isLt
  simp only [Pool.pop, BitVec.toNat_ofNat]
  omega

theorem Pool.pop_bits {k : Nat} (p : Pool) : (p.pop k).bits.toNat = p.bits.toNat % 2 ^ (p.cnt.toNat - k) := by
  have h1 := p.bits.isLt
  have h2 := Nat.mod_le p.bits.toNat (2 ^ (p.cnt.toNat - k))
  simp only [Pool.pop, BitVec.toNat_ofNat, and_mask]
  exact Nat.mod_eq_of_lt (by omega)

theorem Pool.pop_ok {k : Nat} {p : Pool} (hp : p.Ok) : (p.pop k).Ok := by
  rw [Pool.Ok, Pool.pop_cnt, Pool.pop_bits]
  exact ⟨le_trans (Nat.sub_le _ _) hp.1, Nat.mod_lt _ (by positivity)⟩

theorem Pool.top_toNat {k : Nat} {p : Pool} (hp : p.Ok) (h : k ≤ p.cnt.toNat) :
    (p.top k).toNat = p.bits.toNat / 2 ^ (p.cnt.toNat - k) := by
  simp only [Pool.top, BitVec.toNat_ofNat, Nat.shiftRight_eq_div_pow]
  refine Nat.mod_eq_of_lt (Nat.div_lt_of_lt_mul ?_)
  rw [← pow_add, Nat.sub_add_cancel h]
  exact hp.2

/-! ### RESIDUE_ZERO and FLUSH5 (R84, R85) -/

theorem Pool.residueZero_iff {p : Pool} (hp : p.Ok) : p.residueZero = true ↔ p.bits = 0 := by
  simp only [Pool.residueZero, and_mask, Nat.mod_eq_of_lt hp.2, beq_iff_eq]
  exact ⟨fun h => BitVec.eq_of_toNat_eq (by simpa using h), fun h => by simp [h]⟩

theorem Pool.flushed_toNat {p : Pool} (hp : p.Ok) (h : p.cnt.toNat ≤ 5) :
    p.flushed.toNat = p.bits.toNat * 2 ^ (5 - p.cnt.toNat) := by
  simp only [Pool.flushed, BitVec.toNat_ofNat, Nat.shiftLeft_eq]
  refine Nat.mod_eq_of_lt ?_
  calc p.bits.toNat * 2 ^ (5 - p.cnt.toNat) < 2 ^ p.cnt.toNat * 2 ^ (5 - p.cnt.toNat) :=
        Nat.mul_lt_mul_of_pos_right hp.2 (by positivity)
    _ = 2 ^ 5 := by rw [← pow_add, Nat.add_sub_cancel' h]

/-! ### Bit streams -/

/-- Bits at and above position `n` do not reach the low `n` bits. -/
theorem bitsMsb_low (n a b : Nat) (hb : b < 2 ^ n) : ∀ k ≤ n, bitsMsb k (a * 2 ^ n + b) = bitsMsb k b := by
  intro k hk
  induction k with
  | zero => rfl
  | succ k ih =>
    simp only [bitsMsb, ih (by omega)]
    rw [mul_comm, Nat.testBit_two_pow_mul_add _ hb]
    simp [show k < n by omega]

/-- A word's bits, cut in two, are the bits of its parts. -/
theorem bitsMsb_append (m n a b : Nat) (hb : b < 2 ^ n) :
    bitsMsb (m + n) (a * 2 ^ n + b) = bitsMsb m a ++ bitsMsb n b := by
  induction m with
  | zero => simpa [bitsMsb] using bitsMsb_low n a b hb n le_rfl
  | succ m ih =>
    rw [show m + 1 + n = m + n + 1 by omega]
    simp only [bitsMsb, ih, List.cons_append]
    rw [mul_comm, Nat.testBit_two_pow_mul_add _ hb]
    simp

theorem bitsMsb_zero (n : Nat) : bitsMsb n 0 = List.replicate n false := by
  induction n with
  | zero => rfl
  | succ n ih => simp [bitsMsb, ih, List.replicate_succ]

end Sys2Proof.Machine
end

