-- ==== Sys2Proof/Laws/State.lean ====
section
/-! SUPPORT. One lemma per field per named update of State, so that no later proof unfolds a record update. -/
namespace Sys2Proof.Machine

/-! ### accept (10_state.md R22) -/

@[simp] theorem State.accept_cfg (s : State) (w : Word) : (s.accept w).cfg = s.cfg := rfl
@[simp] theorem State.accept_phase (s : State) (w : Word) : (s.accept w).phase = .check := rfl
@[simp] theorem State.accept_done (s : State) (w : Word) : (s.accept w).done = false := rfl
@[simp] theorem State.accept_drop (s : State) (w : Word) : (s.accept w).drop = false := rfl
@[simp] theorem State.accept_result (s : State) (w : Word) : (s.accept w).result = .none := rfl
@[simp] theorem State.accept_inLen (s : State) (w : Word) : (s.accept w).inLen = s.inLen := rfl
@[simp] theorem State.accept_outLen (s : State) (w : Word) : (s.accept w).outLen = 0 := rfl
@[simp] theorem State.accept_hRdata (s : State) (w : Word) : (s.accept w).hRdata = s.hRdata := rfl
@[simp] theorem State.accept_lCmd (s : State) (w : Word) : (s.accept w).lCmd = w := rfl
@[simp] theorem State.accept_lLen (s : State) (w : Word) : (s.accept w).lLen = s.inLen := rfl
@[simp] theorem State.accept_pool (s : State) (w : Word) : (s.accept w).pool = .empty := rfl
@[simp] theorem State.accept_ipos (s : State) (w : Word) : (s.accept w).ipos = 0 := rfl
@[simp] theorem State.accept_opos (s : State) (w : Word) : (s.accept w).opos = 0 := rfl
@[simp] theorem State.accept_aend (s : State) (w : Word) : (s.accept w).aend = 0 := rfl
@[simp] theorem State.accept_nstrip (s : State) (w : Word) : (s.accept w).nstrip = 0 := rfl
@[simp] theorem State.accept_etotal (s : State) (w : Word) : (s.accept w).etotal = 0 := rfl
@[simp] theorem State.accept_ibuf (s : State) (w : Word) : (s.accept w).ibuf = s.ibuf := rfl
@[simp] theorem State.accept_obuf (s : State) (w : Word) : (s.accept w).obuf = s.obuf := rfl
@[simp] theorem State.accept_resets (s : State) (w : Word) : (s.accept w).resets = s.resets := rfl
@[simp] theorem State.accept_draws (s : State) (w : Word) : (s.accept w).draws = s.draws := rfl
@[simp] theorem State.accept_turns (s : State) (w : Word) : (s.accept w).turns = s.turns := rfl
@[simp] theorem State.accept_script (s : State) (w : Word) : (s.accept w).script = s.script := rfl
@[simp] theorem State.accept_reads (s : State) (w : Word) : (s.accept w).reads = s.reads := rfl

/-! ### FINISH(r) (60_exceptions.md R125) -/

@[simp] theorem State.finish_cfg (s : State) (r : Result) : (s.finish r).cfg = s.cfg := rfl
@[simp] theorem State.finish_phase (s : State) (r : Result) : (s.finish r).phase = .idle := rfl
@[simp] theorem State.finish_done (s : State) (r : Result) : (s.finish r).done = true := rfl
@[simp] theorem State.finish_drop (s : State) (r : Result) : (s.finish r).drop = s.drop := rfl
@[simp] theorem State.finish_result (s : State) (r : Result) : (s.finish r).result = r := rfl
@[simp] theorem State.finish_inLen (s : State) (r : Result) : (s.finish r).inLen = s.inLen := rfl
@[simp] theorem State.finish_outLen (s : State) (r : Result) : (s.finish r).outLen = if r = .ok then s.outLen else 0 := rfl
@[simp] theorem State.finish_hRdata (s : State) (r : Result) : (s.finish r).hRdata = s.hRdata := rfl
@[simp] theorem State.finish_lCmd (s : State) (r : Result) : (s.finish r).lCmd = s.lCmd := rfl
@[simp] theorem State.finish_lLen (s : State) (r : Result) : (s.finish r).lLen = s.lLen := rfl
@[simp] theorem State.finish_pool (s : State) (r : Result) : (s.finish r).pool = s.pool := rfl
@[simp] theorem State.finish_ipos (s : State) (r : Result) : (s.finish r).ipos = s.ipos := rfl
@[simp] theorem State.finish_opos (s : State) (r : Result) : (s.finish r).opos = s.opos := rfl
@[simp] theorem State.finish_aend (s : State) (r : Result) : (s.finish r).aend = s.aend := rfl
@[simp] theorem State.finish_nstrip (s : State) (r : Result) : (s.finish r).nstrip = s.nstrip := rfl
@[simp] theorem State.finish_etotal (s : State) (r : Result) : (s.finish r).etotal = s.etotal := rfl
@[simp] theorem State.finish_ibuf (s : State) (r : Result) : (s.finish r).ibuf = s.ibuf := rfl
@[simp] theorem State.finish_obuf (s : State) (r : Result) : (s.finish r).obuf = if r = .novalue then s.spoiledObuf else s.obuf := rfl
@[simp] theorem State.finish_resets (s : State) (r : Result) : (s.finish r).resets = s.resets := rfl
@[simp] theorem State.finish_draws (s : State) (r : Result) : (s.finish r).draws = if r = .novalue then s.draws + 1 else s.draws := rfl
@[simp] theorem State.finish_turns (s : State) (r : Result) : (s.finish r).turns = s.turns := rfl
@[simp] theorem State.finish_script (s : State) (r : Result) : (s.finish r).script = s.script := rfl
@[simp] theorem State.finish_reads (s : State) (r : Result) : (s.finish r).reads = s.reads := rfl

/-! ### OUT_LEN <- OPOS; FINISH(OK) (41_decode.md R102, 42_encode.md R115) -/

@[simp] theorem State.finishOk_cfg (s : State) : (s.finishOk).cfg = s.cfg := rfl
@[simp] theorem State.finishOk_phase (s : State) : (s.finishOk).phase = .idle := rfl
@[simp] theorem State.finishOk_done (s : State) : (s.finishOk).done = true := rfl
@[simp] theorem State.finishOk_drop (s : State) : (s.finishOk).drop = s.drop := rfl
@[simp] theorem State.finishOk_result (s : State) : (s.finishOk).result = .ok := rfl
@[simp] theorem State.finishOk_inLen (s : State) : (s.finishOk).inLen = s.inLen := rfl
@[simp] theorem State.finishOk_outLen (s : State) : (s.finishOk).outLen = s.opos := rfl
@[simp] theorem State.finishOk_hRdata (s : State) : (s.finishOk).hRdata = s.hRdata := rfl
@[simp] theorem State.finishOk_lCmd (s : State) : (s.finishOk).lCmd = s.lCmd := rfl
@[simp] theorem State.finishOk_lLen (s : State) : (s.finishOk).lLen = s.lLen := rfl
@[simp] theorem State.finishOk_pool (s : State) : (s.finishOk).pool = s.pool := rfl
@[simp] theorem State.finishOk_ipos (s : State) : (s.finishOk).ipos = s.ipos := rfl
@[simp] theorem State.finishOk_opos (s : State) : (s.finishOk).opos = s.opos := rfl
@[simp] theorem State.finishOk_aend (s : State) : (s.finishOk).aend = s.aend := rfl
@[simp] theorem State.finishOk_nstrip (s : State) : (s.finishOk).nstrip = s.nstrip := rfl
@[simp] theorem State.finishOk_etotal (s : State) : (s.finishOk).etotal = s.etotal := rfl
@[simp] theorem State.finishOk_ibuf (s : State) : (s.finishOk).ibuf = s.ibuf := rfl
@[simp] theorem State.finishOk_obuf (s : State) : (s.finishOk).obuf = s.obuf := rfl
@[simp] theorem State.finishOk_resets (s : State) : (s.finishOk).resets = s.resets := rfl
@[simp] theorem State.finishOk_draws (s : State) : (s.finishOk).draws = s.draws := rfl
@[simp] theorem State.finishOk_turns (s : State) : (s.finishOk).turns = s.turns := rfl
@[simp] theorem State.finishOk_script (s : State) : (s.finishOk).script = s.script := rfl
@[simp] theorem State.finishOk_reads (s : State) : (s.finishOk).reads = s.reads := rfl

/-! ### DROP <- 1 (10_state.md R23) -/

@[simp] theorem State.setDrop_cfg (s : State) : (s.setDrop).cfg = s.cfg := rfl
@[simp] theorem State.setDrop_phase (s : State) : (s.setDrop).phase = s.phase := rfl
@[simp] theorem State.setDrop_done (s : State) : (s.setDrop).done = s.done := rfl
@[simp] theorem State.setDrop_drop (s : State) : (s.setDrop).drop = true := rfl
@[simp] theorem State.setDrop_result (s : State) : (s.setDrop).result = s.result := rfl
@[simp] theorem State.setDrop_inLen (s : State) : (s.setDrop).inLen = s.inLen := rfl
@[simp] theorem State.setDrop_outLen (s : State) : (s.setDrop).outLen = s.outLen := rfl
@[simp] theorem State.setDrop_hRdata (s : State) : (s.setDrop).hRdata = s.hRdata := rfl
@[simp] theorem State.setDrop_lCmd (s : State) : (s.setDrop).lCmd = s.lCmd := rfl
@[simp] theorem State.setDrop_lLen (s : State) : (s.setDrop).lLen = s.lLen := rfl
@[simp] theorem State.setDrop_pool (s : State) : (s.setDrop).pool = s.pool := rfl
@[simp] theorem State.setDrop_ipos (s : State) : (s.setDrop).ipos = s.ipos := rfl
@[simp] theorem State.setDrop_opos (s : State) : (s.setDrop).opos = s.opos := rfl
@[simp] theorem State.setDrop_aend (s : State) : (s.setDrop).aend = s.aend := rfl
@[simp] theorem State.setDrop_nstrip (s : State) : (s.setDrop).nstrip = s.nstrip := rfl
@[simp] theorem State.setDrop_etotal (s : State) : (s.setDrop).etotal = s.etotal := rfl
@[simp] theorem State.setDrop_ibuf (s : State) : (s.setDrop).ibuf = s.ibuf := rfl
@[simp] theorem State.setDrop_obuf (s : State) : (s.setDrop).obuf = s.obuf := rfl
@[simp] theorem State.setDrop_resets (s : State) : (s.setDrop).resets = s.resets := rfl
@[simp] theorem State.setDrop_draws (s : State) : (s.setDrop).draws = s.draws := rfl
@[simp] theorem State.setDrop_turns (s : State) : (s.setDrop).turns = s.turns := rfl
@[simp] theorem State.setDrop_script (s : State) : (s.setDrop).script = s.script := rfl
@[simp] theorem State.setDrop_reads (s : State) : (s.setDrop).reads = s.reads := rfl

/-! ### the end of a host write that was not ignored (10_state.md R16) -/

@[simp] theorem State.afterWrite_cfg (s : State) : (s.afterWrite).cfg = s.cfg := rfl
@[simp] theorem State.afterWrite_phase (s : State) : (s.afterWrite).phase = s.phase := rfl
@[simp] theorem State.afterWrite_done (s : State) : (s.afterWrite).done = s.done := rfl
@[simp] theorem State.afterWrite_drop (s : State) : (s.afterWrite).drop = s.drop := rfl
@[simp] theorem State.afterWrite_result (s : State) : (s.afterWrite).result = s.result := rfl
@[simp] theorem State.afterWrite_inLen (s : State) : (s.afterWrite).inLen = s.inLen := rfl
@[simp] theorem State.afterWrite_outLen (s : State) : (s.afterWrite).outLen = s.outLen := rfl
@[simp] theorem State.afterWrite_hRdata (s : State) : (s.afterWrite).hRdata = Config.rdataAfterWrite s.draws := rfl
@[simp] theorem State.afterWrite_lCmd (s : State) : (s.afterWrite).lCmd = s.lCmd := rfl
@[simp] theorem State.afterWrite_lLen (s : State) : (s.afterWrite).lLen = s.lLen := rfl
@[simp] theorem State.afterWrite_pool (s : State) : (s.afterWrite).pool = s.pool := rfl
@[simp] theorem State.afterWrite_ipos (s : State) : (s.afterWrite).ipos = s.ipos := rfl
@[simp] theorem State.afterWrite_opos (s : State) : (s.afterWrite).opos = s.opos := rfl
@[simp] theorem State.afterWrite_aend (s : State) : (s.afterWrite).aend = s.aend := rfl
@[simp] theorem State.afterWrite_nstrip (s : State) : (s.afterWrite).nstrip = s.nstrip := rfl
@[simp] theorem State.afterWrite_etotal (s : State) : (s.afterWrite).etotal = s.etotal := rfl
@[simp] theorem State.afterWrite_ibuf (s : State) : (s.afterWrite).ibuf = s.ibuf := rfl
@[simp] theorem State.afterWrite_obuf (s : State) : (s.afterWrite).obuf = s.obuf := rfl
@[simp] theorem State.afterWrite_resets (s : State) : (s.afterWrite).resets = s.resets := rfl
@[simp] theorem State.afterWrite_draws (s : State) : (s.afterWrite).draws = s.draws + 1 := rfl
@[simp] theorem State.afterWrite_turns (s : State) : (s.afterWrite).turns = s.turns := rfl
@[simp] theorem State.afterWrite_script (s : State) : (s.afterWrite).script = s.script := rfl
@[simp] theorem State.afterWrite_reads (s : State) : (s.afterWrite).reads = s.reads := rfl

/-! ### an edge with rst = 1 (70_reset_and_hazards.md R134) -/

@[simp] theorem State.resetEdge_cfg (s : State) : (s.resetEdge).cfg = s.cfg := rfl
@[simp] theorem State.resetEdge_phase (s : State) : (s.resetEdge).phase = .idle := rfl
@[simp] theorem State.resetEdge_done (s : State) : (s.resetEdge).done = false := rfl
@[simp] theorem State.resetEdge_drop (s : State) : (s.resetEdge).drop = false := rfl
@[simp] theorem State.resetEdge_result (s : State) : (s.resetEdge).result = .none := rfl
@[simp] theorem State.resetEdge_inLen (s : State) : (s.resetEdge).inLen = 0 := rfl
@[simp] theorem State.resetEdge_outLen (s : State) : (s.resetEdge).outLen = 0 := rfl
@[simp] theorem State.resetEdge_hRdata (s : State) : (s.resetEdge).hRdata = 0 := rfl
@[simp] theorem State.resetEdge_lCmd (s : State) : (s.resetEdge).lCmd = 0 := rfl
@[simp] theorem State.resetEdge_lLen (s : State) : (s.resetEdge).lLen = 0 := rfl
@[simp] theorem State.resetEdge_pool (s : State) : (s.resetEdge).pool = .empty := rfl
@[simp] theorem State.resetEdge_ipos (s : State) : (s.resetEdge).ipos = 0 := rfl
@[simp] theorem State.resetEdge_opos (s : State) : (s.resetEdge).opos = 0 := rfl
@[simp] theorem State.resetEdge_aend (s : State) : (s.resetEdge).aend = 0 := rfl
@[simp] theorem State.resetEdge_nstrip (s : State) : (s.resetEdge).nstrip = 0 := rfl
@[simp] theorem State.resetEdge_etotal (s : State) : (s.resetEdge).etotal = 0 := rfl
@[simp] theorem State.resetEdge_ibuf (s : State) : (s.resetEdge).ibuf = [] := rfl
@[simp] theorem State.resetEdge_obuf (s : State) : (s.resetEdge).obuf = [] := rfl
@[simp] theorem State.resetEdge_resets (s : State) : (s.resetEdge).resets = s.resets + 1 := rfl
@[simp] theorem State.resetEdge_draws (s : State) : (s.resetEdge).draws = s.draws := rfl
@[simp] theorem State.resetEdge_turns (s : State) : (s.resetEdge).turns = s.turns := rfl
@[simp] theorem State.resetEdge_script (s : State) : (s.resetEdge).script = s.script := rfl
@[simp] theorem State.resetEdge_reads (s : State) : (s.resetEdge).reads = s.reads := rfl

/-! ### a change of the turns alone -/

@[simp] theorem State.withTurns_cfg (s : State) (ts : List Turn) : (s.withTurns ts).cfg = s.cfg := rfl
@[simp] theorem State.withTurns_phase (s : State) (ts : List Turn) : (s.withTurns ts).phase = s.phase := rfl
@[simp] theorem State.withTurns_done (s : State) (ts : List Turn) : (s.withTurns ts).done = s.done := rfl
@[simp] theorem State.withTurns_drop (s : State) (ts : List Turn) : (s.withTurns ts).drop = s.drop := rfl
@[simp] theorem State.withTurns_result (s : State) (ts : List Turn) : (s.withTurns ts).result = s.result := rfl
@[simp] theorem State.withTurns_inLen (s : State) (ts : List Turn) : (s.withTurns ts).inLen = s.inLen := rfl
@[simp] theorem State.withTurns_outLen (s : State) (ts : List Turn) : (s.withTurns ts).outLen = s.outLen := rfl
@[simp] theorem State.withTurns_hRdata (s : State) (ts : List Turn) : (s.withTurns ts).hRdata = s.hRdata := rfl
@[simp] theorem State.withTurns_lCmd (s : State) (ts : List Turn) : (s.withTurns ts).lCmd = s.lCmd := rfl
@[simp] theorem State.withTurns_lLen (s : State) (ts : List Turn) : (s.withTurns ts).lLen = s.lLen := rfl
@[simp] theorem State.withTurns_pool (s : State) (ts : List Turn) : (s.withTurns ts).pool = s.pool := rfl
@[simp] theorem State.withTurns_ipos (s : State) (ts : List Turn) : (s.withTurns ts).ipos = s.ipos := rfl
@[simp] theorem State.withTurns_opos (s : State) (ts : List Turn) : (s.withTurns ts).opos = s.opos := rfl
@[simp] theorem State.withTurns_aend (s : State) (ts : List Turn) : (s.withTurns ts).aend = s.aend := rfl
@[simp] theorem State.withTurns_nstrip (s : State) (ts : List Turn) : (s.withTurns ts).nstrip = s.nstrip := rfl
@[simp] theorem State.withTurns_etotal (s : State) (ts : List Turn) : (s.withTurns ts).etotal = s.etotal := rfl
@[simp] theorem State.withTurns_ibuf (s : State) (ts : List Turn) : (s.withTurns ts).ibuf = s.ibuf := rfl
@[simp] theorem State.withTurns_obuf (s : State) (ts : List Turn) : (s.withTurns ts).obuf = s.obuf := rfl
@[simp] theorem State.withTurns_resets (s : State) (ts : List Turn) : (s.withTurns ts).resets = s.resets := rfl
@[simp] theorem State.withTurns_draws (s : State) (ts : List Turn) : (s.withTurns ts).draws = s.draws := rfl
@[simp] theorem State.withTurns_turns (s : State) (ts : List Turn) : (s.withTurns ts).turns = ts := rfl
@[simp] theorem State.withTurns_script (s : State) (ts : List Turn) : (s.withTurns ts).script = s.script := rfl
@[simp] theorem State.withTurns_reads (s : State) (ts : List Turn) : (s.withTurns ts).reads = s.reads := rfl

/-! ### HostRead (20_memory.md R63) -/

@[simp] theorem hostRead_cfg (s : State) (a : Word) : (hostRead a s).cfg = s.cfg := rfl
@[simp] theorem hostRead_phase (s : State) (a : Word) : (hostRead a s).phase = s.phase := rfl
@[simp] theorem hostRead_done (s : State) (a : Word) : (hostRead a s).done = s.done := rfl
@[simp] theorem hostRead_drop (s : State) (a : Word) : (hostRead a s).drop = s.drop := rfl
@[simp] theorem hostRead_result (s : State) (a : Word) : (hostRead a s).result = s.result := rfl
@[simp] theorem hostRead_inLen (s : State) (a : Word) : (hostRead a s).inLen = s.inLen := rfl
@[simp] theorem hostRead_outLen (s : State) (a : Word) : (hostRead a s).outLen = s.outLen := rfl
@[simp] theorem hostRead_hRdata (s : State) (a : Word) : (hostRead a s).hRdata = hostReadValue a s := rfl
@[simp] theorem hostRead_lCmd (s : State) (a : Word) : (hostRead a s).lCmd = s.lCmd := rfl
@[simp] theorem hostRead_lLen (s : State) (a : Word) : (hostRead a s).lLen = s.lLen := rfl
@[simp] theorem hostRead_pool (s : State) (a : Word) : (hostRead a s).pool = s.pool := rfl
@[simp] theorem hostRead_ipos (s : State) (a : Word) : (hostRead a s).ipos = s.ipos := rfl
@[simp] theorem hostRead_opos (s : State) (a : Word) : (hostRead a s).opos = s.opos := rfl
@[simp] theorem hostRead_aend (s : State) (a : Word) : (hostRead a s).aend = s.aend := rfl
@[simp] theorem hostRead_nstrip (s : State) (a : Word) : (hostRead a s).nstrip = s.nstrip := rfl
@[simp] theorem hostRead_etotal (s : State) (a : Word) : (hostRead a s).etotal = s.etotal := rfl
@[simp] theorem hostRead_ibuf (s : State) (a : Word) : (hostRead a s).ibuf = s.ibuf := rfl
@[simp] theorem hostRead_obuf (s : State) (a : Word) : (hostRead a s).obuf = s.obuf := rfl
@[simp] theorem hostRead_resets (s : State) (a : Word) : (hostRead a s).resets = s.resets := rfl
@[simp] theorem hostRead_draws (s : State) (a : Word) : (hostRead a s).draws = s.draws + 1 := rfl
@[simp] theorem hostRead_turns (s : State) (a : Word) : (hostRead a s).turns = s.turns := rfl
@[simp] theorem hostRead_script (s : State) (a : Word) : (hostRead a s).script = s.script := rfl
@[simp] theorem hostRead_reads (s : State) (a : Word) : (hostRead a s).reads = hostReadValue a s :: s.reads := rfl

end Sys2Proof.Machine
end

