-- ==== Sys2Proof/Laws/Engine.lean ====
section
/-! SUPPORT. What each engine step can do, said once: if a step answers a next state, then one of its rule's branches
holds (41_decode.md R100 to R102, 42_encode.md R112 to R115, 60_exceptions.md R124). -/
namespace Sys2Proof.Machine

@[simp] theorem andThen_next (s : State) (f : State → Out) : andThen (.next s) f = f s := rfl
@[simp] theorem andThen_fault (r : Fault) (f : State → Out) : andThen (.fault r) f = .fault r := rfl
@[simp] theorem andThen_refused (r : Refusal) (f : State → Out) : andThen (.refused r) f = .refused r := rfl

theorem andThen_eq_next {o : Out} {f : State → Out} {t : State} (h : andThen o f = .next t) :
    ∃ u, o = .next u ∧ f u = .next t := by
  cases o with
  | next u => exact ⟨u, rfl, h⟩
  | fault r => simp at h
  | refused r => simp at h

theorem busy_iff {s : State} : s.busy = true ↔ s.phase ≠ .idle := by simp [State.busy]

theorem engineRead_eq_some {s : State} {i : Nat} {v : Byte} :
    s.engineRead i = some v ↔ i < s.cfg.ibufDepth ∧ s.ibufByte i = v := by
  unfold State.engineRead
  split <;> simp_all

theorem emit_eq_next {s t : State} {v : Byte} :
    s.emit v = .next t ↔ s.opos.toNat < s.cfg.obufDepth
      ∧ t = { s with obuf := s.obuf.store s.opos.toNat v, opos := s.opos + 1 } := by
  unfold State.emit
  split
  · rename_i h
    simp only [h, true_and, Host.Outcome.next.injEq]
    exact eq_comm
  · simp [*]

theorem checkDecode_next {s t : State} {pad : Bool} (h : checkDecode pad s = .next t) :
    (pad = true ∧ s.lLen.toNat % 8 ≠ 0 ∧ t = s.finish .novalue)
      ∨ ((pad = true → s.lLen.toNat % 8 = 0)
          ∧ t = { s with aend := s.lLen, phase := if pad then .dStrip else .dWalk }) := by
  unfold checkDecode at h
  split at h
  · rename_i hc
    exact .inl ⟨hc.1, hc.2, (Host.Outcome.next.inj h).symm⟩
  · rename_i hc
    refine .inr ⟨fun hp => ?_, (Host.Outcome.next.inj h).symm⟩
    by_contra hl
    exact hc ⟨hp, hl⟩

theorem checkEncode_next {s t : State} {pad : Bool} (h : checkEncode pad s = .next t) :
    t = { s with etotal := BitVec.ofNat 32 (encodedLength pad s.lLen.toNat), phase := .eWalk } :=
  (Host.Outcome.next.inj h).symm

/-- CHECK (R124): a contract error, or the command's own branch within IBUF_DEPTH. -/
theorem stepCheck_next {c : Decoded} {s t : State} (h : stepCheck c s = .next t) :
    (∃ why, c = .illegal why ∧ t = s.finish .errCmd)
      ∨ (∃ i, c = .command i ∧ s.cfg.ibufDepth < s.lLen.toNat ∧ t = s.finish .errLen)
      ∨ (∃ pad, c = .command (.encode pad) ∧ s.lLen.toNat ≤ s.cfg.ibufDepth ∧ checkEncode pad s = .next t)
      ∨ (∃ pad, c = .command (.decode pad) ∧ s.lLen.toNat ≤ s.cfg.ibufDepth ∧ checkDecode pad s = .next t) := by
  cases c with
  | illegal why => exact .inl ⟨why, rfl, (Host.Outcome.next.inj h).symm⟩
  | command i =>
    simp only [stepCheck] at h
    split at h
    · rename_i hl
      exact .inr (.inl ⟨i, rfl, hl, (Host.Outcome.next.inj h).symm⟩)
    · rename_i hl
      cases i with
      | encode pad => exact .inr (.inr (.inl ⟨pad, rfl, by omega, h⟩))
      | decode pad => exact .inr (.inr (.inr ⟨pad, rfl, by omega, h⟩))

/-- D_STRIP (R100): one pad symbol stripped, or on to D_WALK. -/
theorem stepDStrip_next {s t : State} (h : stepDStrip s = .next t) :
    (s.nstrip.toNat < 6 ∧ 0 < s.aend.toNat ∧ s.engineRead (s.aend.toNat - 1) = some padCode
        ∧ t = { s with aend := s.aend - 1, nstrip := s.nstrip + 1 })
      ∨ (¬ (s.nstrip.toNat < 6 ∧ 0 < s.aend.toNat ∧ s.engineRead (s.aend.toNat - 1) = some padCode)
        ∧ t = { s with phase := .dWalk }) := by
  unfold stepDStrip at h
  split at h
  · rename_i hc
    split at h
    · simp at h
    · rename_i c hr
      split at h
      · rename_i e
        exact .inl ⟨hc.1, hc.2, e ▸ hr, (Host.Outcome.next.inj h).symm⟩
      · rename_i e
        exact .inr ⟨fun ⟨_, _, hp⟩ => e (Option.some.inj (hr.symm.trans hp)), (Host.Outcome.next.inj h).symm⟩
  · rename_i hc
    exact .inr ⟨fun ⟨h1, h2, _⟩ => hc ⟨h1, h2⟩, (Host.Outcome.next.inj h).symm⟩

/-- What one alphabet character does (R101): PUSH(v, 5), and a byte to OBUF when CNT reaches 8. -/
theorem acceptSymbol_next {v : BitVec 5} {s t : State} (h : acceptSymbol v s = .next t) :
    s.pool.cnt.toNat + 5 ≤ 12
      ∧ (((s.pool.push v).holds 8 = true ∧ s.opos.toNat < s.cfg.obufDepth
          ∧ t = { s with
                  pool := (s.pool.push v).pop 8, ipos := s.ipos + 1
                  obuf := s.obuf.store s.opos.toNat ((s.pool.push v).top 8), opos := s.opos + 1 })
        ∨ ((s.pool.push v).holds 8 = false ∧ t = { s with pool := s.pool.push v, ipos := s.ipos + 1 })) := by
  unfold acceptSymbol at h
  split at h
  · rename_i hf
    refine ⟨by simpa [Pool.fits] using hf, ?_⟩
    simp only at h
    split at h
    · rename_i hh
      obtain ⟨hlt, ht⟩ := emit_eq_next.1 h
      exact .inl ⟨hh, hlt, ht⟩
    · rename_i hh
      exact .inr ⟨by simpa using hh, (Host.Outcome.next.inj h).symm⟩
  · simp at h

/-- D_WALK (R101): the end of the range, a non-alphabet character, or one symbol. -/
theorem stepDWalk_next {s t : State} (h : stepDWalk s = .next t) :
    (s.ipos = s.aend ∧ t = { s with phase := .dResid })
      ∨ (s.ipos ≠ s.aend ∧ ∃ c, s.engineRead s.ipos.toNat = some c
          ∧ ((rlut c = none ∧ t = s.finish .novalue) ∨ ∃ v, rlut c = some v ∧ acceptSymbol v s = .next t)) := by
  unfold stepDWalk at h
  split at h
  · rename_i e
    exact .inl ⟨e, (Host.Outcome.next.inj h).symm⟩
  · rename_i e
    split at h
    · simp at h
    · rename_i c hr
      refine .inr ⟨e, c, hr, ?_⟩
      split at h
      · rename_i hv
        exact .inl ⟨hv, (Host.Outcome.next.inj h).symm⟩
      · rename_i v hv
        exact .inr ⟨v, hv, h⟩

/-- D_RESID (R102): OK or NOVALUE by the residual bits. -/
theorem stepDResid_next {s t : State} (h : stepDResid s = .next t) :
    (s.pool.residueZero = true ∧ t = s.finishOk) ∨ (s.pool.residueZero = false ∧ t = s.finish .novalue) := by
  unfold stepDResid at h
  split at h
  · rename_i e
    exact .inl ⟨e, (Host.Outcome.next.inj h).symm⟩
  · rename_i e
    exact .inr ⟨by simpa using e, (Host.Outcome.next.inj h).symm⟩

/-- E_WALK (R112): the end of the input, or one byte pushed. -/
theorem stepEWalk_next {s t : State} (h : stepEWalk s = .next t) :
    (s.ipos = s.lLen ∧ t = { s with phase := .eFlush })
      ∨ (s.ipos ≠ s.lLen ∧ s.pool.cnt.toNat + 8 ≤ 12 ∧ ∃ b, s.engineRead s.ipos.toNat = some b
          ∧ t = { s with pool := s.pool.push b, ipos := s.ipos + 1, phase := .eEmit }) := by
  unfold stepEWalk at h
  split at h
  · rename_i e
    exact .inl ⟨e, (Host.Outcome.next.inj h).symm⟩
  · rename_i e
    split at h
    · simp at h
    · rename_i b hr
      split at h
      · rename_i hf
        exact .inr ⟨e, by simpa [Pool.fits] using hf, b, hr, (Host.Outcome.next.inj h).symm⟩
      · simp at h

/-- E_EMIT (R113): one symbol, or back to E_WALK. -/
theorem stepEEmit_next {s t : State} (h : stepEEmit s = .next t) :
    (s.pool.holds 5 = true ∧ s.opos.toNat < s.cfg.obufDepth
        ∧ t = { s with
                pool := s.pool.pop 5
                obuf := s.obuf.store s.opos.toNat (rom (s.pool.top 5)), opos := s.opos + 1 })
      ∨ (s.pool.holds 5 = false ∧ t = { s with phase := .eWalk }) := by
  unfold stepEEmit at h
  split at h
  · rename_i e
    obtain ⟨hlt, ht⟩ := emit_eq_next.1 h
    exact .inl ⟨e, hlt, ht⟩
  · rename_i e
    exact .inr ⟨by simpa using e, (Host.Outcome.next.inj h).symm⟩

/-- E_FLUSH (R114): the partial quintet, if any bits remain. -/
theorem stepEFlush_next {s t : State} (h : stepEFlush s = .next t) :
    (s.pool.holds 1 = true ∧ s.pool.holds 5 = false ∧ s.opos.toNat < s.cfg.obufDepth
        ∧ t = { s with
                pool := .empty, phase := .ePad
                obuf := s.obuf.store s.opos.toNat (rom s.pool.flushed), opos := s.opos + 1 })
      ∨ (s.pool.holds 1 = false ∧ t = { s with phase := .ePad }) := by
  unfold stepEFlush at h
  split at h
  · rename_i e
    split at h
    · simp at h
    · rename_i e5
      obtain ⟨hlt, ht⟩ := emit_eq_next.1 h
      exact .inl ⟨e, by simpa using e5, hlt, ht⟩
  · rename_i e
    exact .inr ⟨by simpa using e, (Host.Outcome.next.inj h).symm⟩

/-- E_PAD (R115): one pad symbol, or FINISH(OK). -/
theorem stepEPad_next {s t : State} (h : stepEPad s = .next t) :
    (s.opos.toNat < s.etotal.toNat ∧ s.opos.toNat < s.cfg.obufDepth
        ∧ t = { s with obuf := s.obuf.store s.opos.toNat padCode, opos := s.opos + 1 })
      ∨ (s.etotal.toNat ≤ s.opos.toNat ∧ t = s.finishOk) := by
  unfold stepEPad at h
  split at h
  · rename_i e
    obtain ⟨hlt, ht⟩ := emit_eq_next.1 h
    exact .inl ⟨e, hlt, ht⟩
  · rename_i e
    exact .inr ⟨by omega, (Host.Outcome.next.inj h).symm⟩

/-! ### A run of engine steps -/

@[simp] theorem engineRun_idle {c : Decoded} {n : Nat} {s : State} (h : s.phase = .idle) :
    engineRun c n s = .next s := by
  cases n <;> simp [engineRun, State.busy, h]

theorem engineRun_busy {c : Decoded} {n : Nat} {s : State} (h : s.phase ≠ .idle) :
    engineRun c (n + 1) s = andThen (engineStepOf c s) (engineRun c n) := by
  simp [engineRun, State.busy, h]

/-- What every engine step of a run keeps, the run keeps. -/
theorem engineRun_induction {c : Decoded} {P : State → Prop}
    (hstep : ∀ s t, P s → engineStepOf c s = .next t → P t) :
    ∀ n s t, P s → engineRun c n s = .next t → P t := by
  intro n
  induction n with
  | zero => intro s t hs h; exact Host.Outcome.next.inj h ▸ hs
  | succ n ih =>
    intro s t hs h
    by_cases hb : s.phase = .idle
    · rw [engineRun_idle hb] at h
      exact Host.Outcome.next.inj h ▸ hs
    · rw [engineRun_busy hb] at h
      obtain ⟨u, hu, ht⟩ := andThen_eq_next h
      exact ih u t (hstep s u hs hu) ht

end Sys2Proof.Machine
end

