-- ==== Sys2Proof/Laws/HostPort.lean ====
section
/-! SUPPORT. What a host access can do, said once (10_state.md R17 to R27, 20_memory.md R45 to R48). -/
namespace Sys2Proof.Machine

/-- A guarded write: discarded with DROP while busy, its own effect while IDLE. -/
theorem guardedWrite_eq (s u : State) :
    (s.busy = true ∧ s.guardedWrite u = s.setDrop.afterWrite)
      ∨ (s.busy = false ∧ s.guardedWrite u = u.afterWrite) := by
  unfold State.guardedWrite
  cases s.busy <;> simp

/-- HostWrite (R17): ignored; or, while busy, discarded with DROP; or, while IDLE, an accept, a new IN_LEN or one IBUF
entry. -/
theorem hostWrite_cases (a v : Word) (s : State) :
    hostWrite a v s = s
      ∨ (s.phase ≠ .idle ∧ hostWrite a v s = s.setDrop.afterWrite)
      ∨ (s.phase = .idle ∧ target s.cfg a = .cmd ∧ hostWrite a v s = (s.accept v).afterWrite)
      ∨ (s.phase = .idle ∧ target s.cfg a = .inLen ∧ hostWrite a v s = State.afterWrite { s with inLen := v })
      ∨ (s.phase = .idle ∧ ∃ i, target s.cfg a = .ibuf i
          ∧ hostWrite a v s = State.afterWrite { s with ibuf := s.ibuf.store i (v.extractLsb 7 0) }) := by
  unfold hostWrite
  by_cases hb : s.phase = .idle <;> split <;> simp [State.guardedWrite, State.busy, *]

/-- The region of a host address as a number (20_memory.md R43). -/
theorem region_toNat (a : Word) : (a.extractLsb 31 28).toNat = a.toNat / 2 ^ 28 := by
  have := a.isLt
  simp [BitVec.extractLsb, BitVec.extractLsb', Nat.shiftRight_eq_div_pow]
  omega

/-- The index of a host address as a number (20_memory.md R43). -/
theorem index_toNat (a : Word) : (a.extractLsb 27 0).toNat = a.toNat % 2 ^ 28 := by
  simp [BitVec.extractLsb, BitVec.extractLsb']

/-- An IBUF target is below IBUF_DEPTH (20_memory.md R43, R45). -/
theorem target_ibuf_lt {cfg : Config} {a : Word} {i : Nat} (h : target cfg a = .ibuf i) : i < cfg.ibufDepth := by
  simp only [target, registerAt] at h
  split at h
  · split at h <;> (try split at h) <;> (try split at h) <;> (try split at h) <;> simp at h
  · split at h
    · rename_i hc
      exact Target.ibuf.inj h ▸ hc.2
    · split at h <;> simp at h

/-- A host turn is one access and a change of the script (10_state.md R17). -/
theorem hostTurn_cases (s : State) :
    hostTurn s = s ∨ ∃ t ops, hostTurn s = { transact t s with script := ops } := by
  unfold hostTurn
  split
  · exact .inl rfl
  · exact .inr ⟨_, _, rfl⟩

theorem transact_cases (t : Transaction) (s : State) :
    transact t s = hostWrite t.addr t.wdata s ∨ transact t s = hostRead t.addr s := by
  unfold transact
  split <;> simp

/-- What no host turn changes: the configuration, the draw the unwritten buffer entries hold, and OBUF; and, while busy,
the input, its length and the latched command too (R23, R25, R46, R48). -/
theorem hostTurn_keeps (s : State) :
    (hostTurn s).cfg = s.cfg ∧ (hostTurn s).resets = s.resets ∧ (hostTurn s).obuf = s.obuf
      ∧ (s.phase ≠ .idle → (hostTurn s).ibuf = s.ibuf ∧ (hostTurn s).inLen = s.inLen
          ∧ (hostTurn s).lCmd = s.lCmd ∧ (hostTurn s).lLen = s.lLen) := by
  obtain e | ⟨t, ops, e⟩ := hostTurn_cases s <;> rw [e]
  · simp
  · obtain e | e := transact_cases t s <;> rw [e]
    · obtain e | ⟨_, e⟩ | ⟨h, _, e⟩ | ⟨h, _, e⟩ | ⟨h, _, _, e⟩ := hostWrite_cases t.addr t.wdata s
      · simp [e]
      · simp [e]
      · simp [e, h]
      · simp [e, h]
      · simp [e, h]
    · simp

end Sys2Proof.Machine
end

