-- ==== Sys2Proof/Laws/Memory.lean ====
section
/-! SUPPORT. The buffer memories: what a store or a redraw leaves at every index, and that both keep the canonical form
and stay within a buffer's depth. -/
namespace Sys2Proof.Machine

/-! ### The canonical form, by cases -/

theorem Memory.wf_cons {a : Host.Cell} {m : Memory} :
    Memory.wf (a :: m) = true ↔ Memory.wf m = true ∧ ∀ c ∈ m, a.1 < c.1 := by
  induction m generalizing a with
  | nil => simp [Memory.wf]
  | cons b m ih =>
    simp only [Memory.wf, Bool.and_eq_true, decide_eq_true_eq, List.mem_cons, forall_eq_or_imp]
    rw [ih]
    exact ⟨fun ⟨hab, hm, hb⟩ => ⟨⟨hm, hb⟩, hab, fun c hc => lt_trans hab (hb c hc)⟩,
      fun ⟨⟨hm, hb⟩, hab, _⟩ => ⟨hab, hm, hb⟩⟩

/-- The canonical form is the order on indices that the core library calls pairwise. -/
theorem Memory.wf_iff_pairwise {m : Memory} : Memory.wf m = true ↔ m.Pairwise (fun a b => a.1 < b.1) := by
  induction m with
  | nil => simp [Memory.wf]
  | cons a m ih => rw [Memory.wf_cons, List.pairwise_cons, ih, and_comm]

theorem Memory.below_iff {m : Memory} {d : Nat} : m.below d = true ↔ ∀ c ∈ m, c.1 < d := by
  simp [Memory.below]

/-! ### store -/

theorem Memory.mem_store {m : Memory} {i : Nat} {v : Byte} {c : Host.Cell} :
    c ∈ m.store i v → c = (i, v) ∨ c ∈ m := by
  induction m with
  | nil => simp [Memory.store]
  | cons a m ih =>
    simp only [Memory.store]
    split
    · simp
    · split
      · simp only [List.mem_cons]; tauto
      · simp only [List.mem_cons]; tauto

theorem Memory.store_wf {m : Memory} {i : Nat} {v : Byte} (h : m.wf = true) : (m.store i v).wf = true := by
  induction m with
  | nil => rfl
  | cons a m ih =>
    obtain ⟨hm, ha⟩ := Memory.wf_cons.1 h
    simp only [Memory.store]
    split
    · rename_i hlt
      refine Memory.wf_cons.2 ⟨h, fun c hc => ?_⟩
      obtain rfl | hc := List.mem_cons.1 hc
      · exact hlt
      · exact lt_trans hlt (ha c hc)
    · split
      · rename_i heq
        exact Memory.wf_cons.2 ⟨hm, fun c hc => heq ▸ ha c hc⟩
      · refine Memory.wf_cons.2 ⟨ih hm, fun c hc => ?_⟩
        obtain rfl | hc := Memory.mem_store hc
        · simp only at *; omega
        · exact ha c hc

theorem Memory.store_below {m : Memory} {i d : Nat} {v : Byte} (hi : i < d) (h : m.below d = true) :
    (m.store i v).below d = true := by
  rw [Memory.below_iff] at *
  intro c hc
  obtain rfl | hc := Memory.mem_store hc
  · exact hi
  · exact h c hc

@[simp] theorem Memory.stored_store_self (m : Memory) (i : Nat) (v : Byte) : (m.store i v).stored i = some v := by
  induction m with
  | nil => simp [Memory.store, Memory.stored]
  | cons a m ih =>
    simp only [Memory.store]
    split
    · simp [Memory.stored]
    · split
      · simp [Memory.stored]
      · simp [Memory.stored, *]

theorem Memory.stored_store_other (m : Memory) {i j : Nat} (v : Byte) (h : j ≠ i) :
    (m.store i v).stored j = m.stored j := by
  induction m with
  | nil => simp [Memory.store, Memory.stored, h]
  | cons a m ih =>
    simp only [Memory.store]
    split
    · simp [Memory.stored, h]
    · split
      · rename_i heq
        simp [Memory.stored, h, ← heq]
      · simp only [Memory.stored, ih]

/-! ### redraw -/

theorem Memory.redraw_wf {m : Memory} {n : Nat} {f : Nat → Byte} (h : m.wf = true) : (m.redraw n f).wf = true := by
  rw [Memory.wf_iff_pairwise] at *
  refine List.pairwise_append.2 ⟨?_, h.filter _, ?_⟩
  · exact List.pairwise_map.2 List.pairwise_lt_range
  · intro a ha b hb
    obtain ⟨i, hi, rfl⟩ := List.mem_map.1 ha
    have := List.mem_range.1 hi
    have := (List.mem_filter.1 hb).2
    simp only [decide_eq_true_eq] at this
    simp only
    omega

theorem Memory.redraw_below {m : Memory} {n d : Nat} {f : Nat → Byte} (hn : n ≤ d) (h : m.below d = true) :
    (m.redraw n f).below d = true := by
  rw [Memory.below_iff] at *
  intro c hc
  obtain hc | hc := List.mem_append.1 hc
  · obtain ⟨i, hi, rfl⟩ := List.mem_map.1 hc
    have := List.mem_range.1 hi
    simp only
    omega
  · exact h c (List.mem_filter.1 hc).1

theorem Memory.stored_append (m n : Memory) (i : Nat) :
    Memory.stored (m ++ n) i = ((m.stored i).or (n.stored i)) := by
  induction m with
  | nil => simp [Memory.stored]
  | cons a m ih =>
    simp only [List.cons_append, Memory.stored]
    split
    · rfl
    · exact ih

theorem Memory.stored_eq_none {m : Memory} {i : Nat} (h : ∀ c ∈ m, c.1 ≠ i) : m.stored i = none := by
  induction m with
  | nil => rfl
  | cons a m ih =>
    simp only [Memory.stored]
    rw [if_neg (fun e => h a (List.mem_cons_self) e.symm)]
    exact ih fun c hc => h c (List.mem_cons_of_mem _ hc)

theorem Memory.stored_map {l : List Nat} {f : Nat → Byte} {i : Nat} (h : i ∈ l) :
    Memory.stored (l.map fun j => (j, f j)) i = some (f i) := by
  induction l with
  | nil => simp at h
  | cons a l ih =>
    simp only [List.map_cons, Memory.stored]
    split
    · rename_i e; rw [e]
    · rename_i e
      exact ih ((List.mem_cons.1 h).resolve_left e)

theorem Memory.stored_filter {m : Memory} {n i : Nat} (h : n ≤ i) :
    Memory.stored (m.filter fun c => decide (n ≤ c.1)) i = m.stored i := by
  induction m with
  | nil => rfl
  | cons a m ih =>
    by_cases ha : n ≤ a.1
    · simp only [List.filter_cons, ha, decide_true, if_true, Memory.stored, ih]
    · simp only [List.filter_cons, ha, decide_false, Memory.stored]
      rw [if_neg (show ¬ i = a.1 by omega)]
      simpa using ih

/-- Below `n` a redraw holds the drawn value. -/
theorem Memory.stored_redraw_lt (m : Memory) {n i : Nat} (f : Nat → Byte) (h : i < n) :
    (m.redraw n f).stored i = some (f i) := by
  rw [Memory.redraw, Memory.stored_append, Memory.stored_map (List.mem_range.2 h)]
  rfl

/-- At and above `n` a redraw changes nothing. -/
theorem Memory.stored_redraw_ge (m : Memory) {n i : Nat} (f : Nat → Byte) (h : n ≤ i) :
    (m.redraw n f).stored i = m.stored i := by
  rw [Memory.redraw, Memory.stored_append, Memory.stored_filter h, Memory.stored_eq_none]
  · rfl
  · intro c hc
    obtain ⟨j, hj, rfl⟩ := List.mem_map.1 hc
    have := List.mem_range.1 hj
    simp only
    omega

end Sys2Proof.Machine
end

