-- ==== Sys2Proof/Laws/PerInstr.lean ====
section
/-! SUPPORT. Statements made for every command, one lemma per constructor of Instr. -/
namespace Sys2Proof.Laws

/-- The row of spec/opcode_table.json for a command: its "mask" and its "match". -/
def MatchesTableRow.row : Instr → Word × Word
  | .encode _ => (0xFFFFFFFB, 0x00000001)
  | .decode _ => (0xFFFFFFFB, 0x00000002)

/-- A command's encoding, under its row's mask, is its row's match, and the masked-out bit 2 is P (30_encoding.md R67). -/
def MatchesTableRow.Statement (i : Instr) : Prop :=
  encode i &&& (MatchesTableRow.row i).1 = (MatchesTableRow.row i).2
    ∧ (encode i).getLsbD 2 = match i with | .encode pad => pad | .decode pad => pad

theorem MatchesTableRow.encode (pad : Bool) : MatchesTableRow.Statement (.encode pad) := by
  cases pad <;> exact ⟨by decide, by decide⟩

theorem MatchesTableRow.decode (pad : Bool) : MatchesTableRow.Statement (.decode pad) := by
  cases pad <;> exact ⟨by decide, by decide⟩

end Sys2Proof.Laws
end

