-- ==== Sys2Proof/Laws/Step.lean ====
section
/-! SUPPORT. What one step of the machine can do, said once, and what no engine step and no run of engine steps touches. -/
namespace Sys2Proof.Machine

/-- A step is a host access, an engine step, a reset or a whole command (10_state.md R17, Machine/Step.lean). -/
theorem step_cases {s u : State} (h : step s = .next u) :
    (∃ r, s.turns = .host :: r ∧ u = hostTurn (s.withTurns r))
      ∨ (∃ r, s.turns = .engine :: r ∧ engineStep (s.withTurns r) = .next u)
      ∨ (∃ r, s.turns = .reset :: r ∧ u = State.resetEdge (s.withTurns r))
      ∨ (s.turns = [] ∧ s.phase ≠ .idle ∧ runCommand s = .next u)
      ∨ (s.turns = [] ∧ s.phase = .idle ∧ u = hostTurn s) := by
  unfold step guarded takeTurn at h
  split at h
  · split at h
    · rename_i r ht
      exact .inl ⟨r, ht, (Host.Outcome.next.inj h).symm⟩
    · rename_i r ht
      exact .inr (.inl ⟨r, ht, h⟩)
    · rename_i r ht
      exact .inr (.inr (.inl ⟨r, ht, (Host.Outcome.next.inj h).symm⟩))
    · rename_i ht
      split at h
      · rename_i hb
        exact .inr (.inr (.inr (.inl ⟨ht, busy_iff.1 hb, h⟩)))
      · rename_i hb
        exact .inr (.inr (.inr (.inr ⟨ht, by simpa [State.busy] using hb, (Host.Outcome.next.inj h).symm⟩)))
  · cases h

/-- What the engine never writes: the configuration, the latched command, the input, DROP, h_rdata and the outside. -/
def EngineKeeps (s u : State) : Prop :=
  u.cfg = s.cfg ∧ u.lCmd = s.lCmd ∧ u.lLen = s.lLen ∧ u.ibuf = s.ibuf ∧ u.inLen = s.inLen ∧ u.drop = s.drop
    ∧ u.hRdata = s.hRdata ∧ u.resets = s.resets ∧ u.turns = s.turns ∧ u.script = s.script ∧ u.reads = s.reads

theorem engineKeeps_refl (s : State) : EngineKeeps s s := by simp [EngineKeeps]

theorem EngineKeeps.trans {s t u : State} (h : EngineKeeps s t) (k : EngineKeeps t u) : EngineKeeps s u := by
  simp_all [EngineKeeps]

/-- The frame of every engine step. -/
theorem engineStepOf_keeps {c : Decoded} {s u : State} (h : engineStepOf c s = .next u) : EngineKeeps s u := by
  unfold engineStepOf at h
  cases hph : s.phase <;> simp only [hph] at h
  · cases h
    exact engineKeeps_refl s
  · obtain ⟨_, _, rfl⟩ | ⟨_, _, _, rfl⟩ | ⟨_, _, _, h⟩ | ⟨_, _, _, h⟩ := stepCheck_next h
    · simp [EngineKeeps]
    · simp [EngineKeeps]
    · rw [checkEncode_next h]
      simp [EngineKeeps]
    · obtain ⟨_, _, rfl⟩ | ⟨_, rfl⟩ := checkDecode_next h <;> simp [EngineKeeps]
  · obtain ⟨_, _, _, rfl⟩ | ⟨_, rfl⟩ := stepDStrip_next h <;> simp [EngineKeeps]
  · obtain ⟨_, rfl⟩ | ⟨_, _, _, ⟨_, rfl⟩ | ⟨_, _, h⟩⟩ := stepDWalk_next h
    · simp [EngineKeeps]
    · simp [EngineKeeps]
    · obtain ⟨_, ⟨_, _, rfl⟩ | ⟨_, rfl⟩⟩ := acceptSymbol_next h <;> simp [EngineKeeps]
  · obtain ⟨_, rfl⟩ | ⟨_, rfl⟩ := stepDResid_next h <;> simp [EngineKeeps]
  · obtain ⟨_, rfl⟩ | ⟨_, _, _, _, rfl⟩ := stepEWalk_next h <;> simp [EngineKeeps]
  · obtain ⟨_, _, rfl⟩ | ⟨_, rfl⟩ := stepEEmit_next h <;> simp [EngineKeeps]
  · obtain ⟨_, _, _, rfl⟩ | ⟨_, rfl⟩ := stepEFlush_next h <;> simp [EngineKeeps]
  · obtain ⟨_, _, rfl⟩ | ⟨_, rfl⟩ := stepEPad_next h <;> simp [EngineKeeps]

/-- The frame of a run of engine steps. -/
theorem engineRun_keeps {c : Decoded} {n : Nat} {s u : State} (h : engineRun c n s = .next u) : EngineKeeps s u :=
  engineRun_induction (P := EngineKeeps s) (fun _ _ hk hs => hk.trans (engineStepOf_keeps hs)) n s u
    (engineKeeps_refl s) h

/-- An engine step leaves RESULT, OUT_LEN and DONE alone, or it is the FINISH of a running command, with a code other
than NONE (R24, R125). -/
theorem engineStepOf_result {c : Decoded} {s u : State} (h : engineStepOf c s = .next u) :
    (u.result = s.result ∧ u.outLen = s.outLen ∧ u.done = s.done)
      ∨ (s.phase ≠ .idle ∧ u.phase = .idle ∧ u.done = true ∧ u.result ≠ .none) := by
  unfold engineStepOf at h
  cases hph : s.phase <;> simp only [hph] at h
  · cases h
    simp
  · obtain ⟨_, _, rfl⟩ | ⟨_, _, _, rfl⟩ | ⟨_, _, _, h⟩ | ⟨_, _, _, h⟩ := stepCheck_next h
    · simp
    · simp
    · rw [checkEncode_next h]
      simp
    · obtain ⟨_, _, rfl⟩ | ⟨_, rfl⟩ := checkDecode_next h <;> simp
  · obtain ⟨_, _, _, rfl⟩ | ⟨_, rfl⟩ := stepDStrip_next h <;> simp
  · obtain ⟨_, rfl⟩ | ⟨_, _, _, ⟨_, rfl⟩ | ⟨_, _, h⟩⟩ := stepDWalk_next h
    · simp
    · simp
    · obtain ⟨_, ⟨_, _, rfl⟩ | ⟨_, rfl⟩⟩ := acceptSymbol_next h <;> simp
  · obtain ⟨_, rfl⟩ | ⟨_, rfl⟩ := stepDResid_next h <;> simp
  · obtain ⟨_, rfl⟩ | ⟨_, _, _, _, rfl⟩ := stepEWalk_next h <;> simp
  · obtain ⟨_, _, rfl⟩ | ⟨_, rfl⟩ := stepEEmit_next h <;> simp
  · obtain ⟨_, _, _, rfl⟩ | ⟨_, rfl⟩ := stepEFlush_next h <;> simp
  · obtain ⟨_, _, rfl⟩ | ⟨_, rfl⟩ := stepEPad_next h <;> simp

/-- Both meanings are one run of engine steps within the command's bound. -/
theorem exec_eq_engineRun (i : Instr) (s : State) :
    exec i s = engineRun (.command i) (stepBound i s.lLen.toNat) s := by
  cases i <;> rfl

/-- The frame of a running command, legal word or not. -/
theorem runCommand_keeps {s u : State} (h : runCommand s = .next u) : EngineKeeps s u := by
  unfold runCommand at h
  split at h
  · rw [exec_eq_engineRun] at h
    exact engineRun_keeps h
  · exact engineStepOf_keeps h

end Sys2Proof.Machine
end

