-- ==== Sys2Proof/Tests/Slice0.lean ====
section
/-! SUPPORT. Tests: expected values are those of spec/ (its rules' examples and 95_test_vectors.md), named beside each; and
the witnesses: for every statement with hypotheses, a state and operands that meet them. -/
namespace Sys2Proof.Tests

open Sys2Proof Sys2Proof.Machine

/-! ### Ill-formed terms are refused -/

theorem smoke_loadin_too_long : ∀ es : List Word, es.length = 2 ^ 28 + 1 → Stmt.wellFormed (.loadin es) = false := by
  intro es h
  simp only [Stmt.wellFormed, fitsWindow, h]
  decide

theorem smoke_text_wide_character : Stmt.wellFormed (.loadinText ['M', 'Ω']) = false := by decide

theorem smoke_config_empty_ibuf : Config.wf ⟨0, 32⟩ = false := by decide
theorem smoke_config_small_obuf : Config.wf ⟨16, 31⟩ = false := by decide
theorem smoke_config_too_deep : Config.wf ⟨2 ^ 28 + 1, 2 ^ 28⟩ = false ∧ Config.wf ⟨16, 2 ^ 28 + 1⟩ = false := by decide
theorem smoke_config_refused : (match step { State.reset with cfg := ⟨16, 31⟩ } with
    | .refused .badConfig => true | _ => false) = true := by decide

theorem smoke_memory_unsorted : Memory.wf [(3, 0x41), (1, 0x42)] = false := by decide
theorem smoke_memory_repeated : Memory.wf [(3, 0x41), (3, 0x42)] = false := by decide

/-! ### Decoding: words written out from 30_encoding.md R67, and reserved words of 95_test_vectors.md 2.6 -/

theorem test_decode_encode_word :
    decodeCmd 0b0000000000000000000000000000_0001#32 = .command (.encode false)
      ∧ decodeCmd 0b0000000000000000000000000000_0101#32 = .command (.encode true) := by decide

theorem test_decode_decode_word :
    decodeCmd 0b0000000000000000000000000000_0010#32 = .command (.decode false)
      ∧ decodeCmd 0b0000000000000000000000000000_0110#32 = .command (.decode true) := by decide

theorem test_decode_rejects_reserved :
    decodeCmd 0x0000_0000#32 = .illegal .reservedOp ∧ decodeCmd 0x0000_0007#32 = .illegal .reservedOp
      ∧ decodeCmd 0x0000_000D#32 = .illegal .reservedBits ∧ decodeCmd 0x8000_0001#32 = .illegal .reservedBits := by
  decide

theorem test_table_word_runs_first (pad : Bool) :
    decodeTableWord 32 (encode (.encode pad)).toNat = some (.encode pad)
      ∧ step (State.reset.withFetchWord 32 (encode (.encode pad)).toNat)
          = exec (.encode pad) (State.reset.withFetchWord 32 (encode (.encode pad)).toNat) := by
  cases pad <;> exact ⟨by decide, rfl⟩

/-! ### Alphabet and bit pool (95_test_vectors.md 2.1, 2.2) -/

/-- A1, A3, A5, A7. -/
theorem test_alphabet : rom 25 = 0x5A ∧ rom 26 = 0x32 ∧ rlut 0x37 = some 31 ∧ rlut 0x5B = none ∧ rlut 0x3D = none := by
  decide

/-- B2 and B6 (R82's and R83's examples). -/
theorem test_push_then_pop :
    Pool.push ⟨0b011, 3⟩ (0x6F : BitVec 8) = ⟨0x36F, 11⟩
      ∧ Pool.top ⟨0x36F, 11⟩ 8 = 0x6D ∧ Pool.pop ⟨0x36F, 11⟩ 8 = ⟨0b111, 3⟩ := by decide

/-- B12, B16. -/
theorem test_residue_and_flush : Pool.residueZero ⟨0b01, 2⟩ = false ∧ Pool.flushed ⟨0b110, 3⟩ = 24 := by decide

/-! ### The two commands, each one step from a loaded block -/

/-- An idle block with `b` loaded (70_reset_and_hazards.md R150). -/
def loaded (b : List Byte) : State :=
  { State.reset with ibuf := b.mapIdx (fun i v => (i, v)), inLen := BitVec.ofNat 32 b.length }

/-- `loaded b` after accept of the command. -/
def accepted (i : Instr) (b : List Byte) : State := (loaded b).accept (encode i)

/-- RESULT, OUT_LEN and OBUF[0 .. OUT_LEN-1] of a next state. -/
def outcomeOf : Out → Option (Result × Word × List Byte)
  | .next s => some s.outcome
  | .fault _ => none
  | .refused _ => none

theorem exists_of_outcomeOf {o : Out} {r : Result × Word × List Byte} (h : outcomeOf o = some r) :
    ∃ u, o = .next u ∧ u.outcome = r := by
  cases o with
  | next s => exact ⟨s, rfl, Option.some.inj h⟩
  | fault r => cases h
  | refused r => cases h

/-- S4: "foo" with padding is `MZXW6===`. -/
theorem test_encode_foo_padded :
    outcomeOf (exec (.encode true) (accepted (.encode true) [0x66, 0x6F, 0x6F]))
      = some (.ok, 8, [0x4D, 0x5A, 0x58, 0x57, 0x36, 0x3D, 0x3D, 0x3D]) := by decide +kernel

/-- E13: de ad be ef without padding is `32W353Y`. -/
theorem test_encode_deadbeef :
    outcomeOf (exec (.encode false) (accepted (.encode false) [0xDE, 0xAD, 0xBE, 0xEF]))
      = some (.ok, 7, [0x33, 0x32, 0x57, 0x33, 0x35, 0x33, 0x59]) := by decide +kernel

/-- D-P5: `MZXW6A==` with padding is 66 6f 6f. -/
theorem test_decode_noncanonical :
    outcomeOf (exec (.decode true) (accepted (.decode true) [0x4D, 0x5A, 0x58, 0x57, 0x36, 0x41, 0x3D, 0x3D]))
      = some (.ok, 3, [0x66, 0x6F, 0x6F]) := by decide +kernel

/-- D-N7: `MB` without padding is NOVALUE. -/
theorem test_decode_residual :
    outcomeOf (exec (.decode false) (accepted (.decode false) [0x4D, 0x42])) = some (.novalue, 0, []) := by
  decide +kernel

/-- K8, K9: ERR_LEN before the length check, ERR_CMD before ERR_LEN. -/
theorem test_contract_errors :
    outcomeOf (step ({ State.reset with inLen := 17 }.withFetchWord 32 6)) = some (.errLen, 0, [])
      ∧ outcomeOf (step ({ State.reset with inLen := 17 }.withFetchWord 32 3)) = some (.errCmd, 0, []) := by
  decide +kernel

/-! ### Host accesses (95_test_vectors.md 2.7) -/

/-- H5: `WR 0x1000_0003, 0x1234_5641` stores 0x41. H6: index 16 = IBUF_DEPTH is ignored. -/
theorem test_ibuf_write :
    hostReadValue 0x10000003 (hostWrite 0x10000003 0x12345641 State.reset) = 0x41
      ∧ hostWrite 0x10000010 0x41 State.reset = State.reset := by decide +kernel

/-- H14: a write while BUSY sets DROP (STATUS reads 0x5, program P6). -/
theorem test_busy_write_sets_drop :
    (hostWrite 0x10000000 0x42 (accepted (.decode false) [0x41])).status = 5
      ∧ (hostWrite 0x10000000 0x42 (accepted (.decode false) [0x41])).ibuf = [(0, 0x41)] := by decide +kernel

/-- STATUS while IDLE with DROP = 0, for each RESULT code of 60_exceptions.md R119 (10_state.md R20: RESULT in bits 7:4,
DONE in bit 1). -/
theorem test_status_of_each_result :
    State.reset.status = 0x00 ∧ (State.reset.finish .ok).status = 0x12 ∧ (State.reset.finish .novalue).status = 0x22
      ∧ (State.reset.finish .errCmd).status = 0x32 ∧ (State.reset.finish .errLen).status = 0x42 := by decide +kernel

/-- done_o is a level that follows DONE (10_state.md R27): 0 after reset, 1 after FINISH, 0 after the next accept. -/
theorem test_done_o : State.reset.doneO = false ∧ (State.reset.finish .ok).doneO = true
    ∧ (State.accept (State.reset.finish .ok) 1).doneO = false := by decide

/-! ### Small states, one a phase, with the invariant -/

/-- DECODE with P = 1 of `MY======`, at D_STRIP. -/
def atStrip : State :=
  { accepted (.decode true) [0x4D, 0x59, 0x3D, 0x3D, 0x3D, 0x3D, 0x3D, 0x3D] with phase := .dStrip, aend := 8 }

/-- DECODE of `MY`, at D_WALK with `M` taken. -/
def atWalk : State :=
  { accepted (.decode false) [0x4D, 0x59] with phase := .dWalk, aend := 2, ipos := 1, pool := ⟨0b01100, 5⟩ }

/-- The same at the end of the range. -/
def atResid : State :=
  { accepted (.decode false) [0x4D, 0x59] with
    phase := .dResid, aend := 2, ipos := 2, opos := 1, pool := ⟨0, 2⟩, obuf := [(0, 0x66)] }

/-- ENCODE with P = 1 of 66, at E_WALK. -/
def atEncodeWalk : State := { accepted (.encode true) [0x66] with phase := .eWalk, etotal := 8 }

/-- The same with the byte pushed. -/
def atEmit : State :=
  { accepted (.encode true) [0x66] with phase := .eEmit, etotal := 8, ipos := 1, pool := ⟨0x66, 8⟩ }

/-- The same with `M` written and three bits left. -/
def atFlush : State :=
  { accepted (.encode true) [0x66] with
    phase := .eFlush, etotal := 8, ipos := 1, opos := 1, pool := ⟨0b110, 3⟩, obuf := [(0, 0x4D)] }

/-- The same with `MY` written. -/
def atPad : State :=
  { accepted (.encode true) [0x66] with
    phase := .ePad, etotal := 8, ipos := 1, opos := 2, obuf := [(0, 0x4D), (1, 0x59)] }

theorem statusOk_of_busy {s : State} (h : s.phase ≠ .idle) (hd : s.done = false) (hr : s.result = .none)
    (ho : s.outLen = 0) : StatusOk s :=
  ⟨fun _ => ⟨hd, hr⟩, fun e => absurd e h, fun _ => ho⟩

theorem witness_inv_idle : Inv (loaded [0x66]) ∧ (loaded [0x66]).phase = .idle :=
  ⟨⟨by decide, by unfold BuffersOk; decide, Pool.empty_ok, ⟨by decide, fun _ => .inl (by decide), by decide⟩, by decide,
    trivial⟩, rfl⟩

theorem witness_inv_check (i : Instr) : Inv (accepted i [0x66]) ∧ (accepted i [0x66]).phase = .check :=
  ⟨⟨(by decide : Config.wf ⟨16, 32⟩ = true), by unfold BuffersOk; exact ⟨rfl, rfl, rfl, rfl⟩, Pool.empty_ok, statusOk_of_busy (fun e => nomatch e) rfl rfl rfl,
    Nat.zero_le _, ⟨rfl, rfl, rfl, rfl, rfl, rfl⟩⟩, rfl⟩

theorem witness_inv_dStrip : Inv atStrip ∧ atStrip.phase = .dStrip :=
  ⟨⟨by decide, by unfold BuffersOk; decide, by unfold Pool.Ok; decide, statusOk_of_busy (by decide) rfl rfl rfl, by decide,
    ⟨true, by decide⟩, by decide, by decide, by decide⟩, rfl⟩

theorem witness_inv_dWalk : Inv atWalk ∧ atWalk.phase = .dWalk :=
  ⟨⟨by decide, by unfold BuffersOk; decide, by unfold Pool.Ok; decide, statusOk_of_busy (by decide) rfl rfl rfl, by decide,
    ⟨false, by decide⟩⟩, rfl⟩

theorem witness_inv_dResid : Inv atResid ∧ atResid.phase = .dResid :=
  ⟨⟨by decide, by unfold BuffersOk; decide, by unfold Pool.Ok; decide, statusOk_of_busy (by decide) rfl rfl rfl, by decide,
    ⟨false, by decide⟩, by decide⟩, rfl⟩

theorem witness_inv_eWalk : Inv atEncodeWalk ∧ atEncodeWalk.phase = .eWalk :=
  ⟨⟨by decide, by unfold BuffersOk; decide, by unfold Pool.Ok; decide, statusOk_of_busy (by decide) rfl rfl rfl, by decide,
    ⟨true, by decide⟩, by decide⟩, rfl⟩

theorem witness_inv_eEmit : Inv atEmit ∧ atEmit.phase = .eEmit :=
  ⟨⟨by decide, by unfold BuffersOk; decide, by unfold Pool.Ok; decide, statusOk_of_busy (by decide) rfl rfl rfl, by decide,
    ⟨true, by decide⟩⟩, rfl⟩

theorem witness_inv_eFlush : Inv atFlush ∧ atFlush.phase = .eFlush :=
  ⟨⟨by decide, by unfold BuffersOk; decide, by unfold Pool.Ok; decide, statusOk_of_busy (by decide) rfl rfl rfl, by decide,
    ⟨true, by decide⟩, by decide, by decide⟩, rfl⟩

theorem witness_inv_ePad : Inv atPad ∧ atPad.phase = .ePad :=
  ⟨⟨by decide, by unfold BuffersOk; decide, by unfold Pool.Ok; decide, statusOk_of_busy (by decide) rfl rfl rfl, by decide,
    ⟨true, by decide⟩⟩, rfl⟩

/-! ### Witnesses: encoding and the bit pool -/

/-- DecodeOfEncodeIsTheCommand, for either command. -/
theorem witness_wellFormed : Instr.wellFormed (.encode true) = true ∧ Instr.wellFormed (.decode false) = true := by decide

/-- PushAppendsBelow, n = 8 and n = 5, each at CNT + n = 12. -/
theorem witness_push : (Pool.mk 0xF 4).Ok ∧ (Pool.mk 0xF 4).cnt.toNat + 8 ≤ 12 ∧ (Pool.mk 0x7F 7).Ok
    ∧ (Pool.mk 0x7F 7).cnt.toNat + 5 ≤ 12 := by unfold Pool.Ok; decide

/-- PopTakesTheOldestBits, k = 5 at CNT = 5 and k = 8 at CNT = 12. -/
theorem witness_pop : (Pool.mk 0x1F 5).Ok ∧ 5 ≤ (Pool.mk 0x1F 5).cnt.toNat ∧ (Pool.mk 0xFFF 12).Ok
    ∧ 8 ≤ (Pool.mk 0xFFF 12).cnt.toNat := by unfold Pool.Ok; decide

/-- ResidueTestAndFlush at CNT = 1 and 4; PoolIsABitStream's three clauses at CNT = 12, 12 and 5. -/
theorem witness_flush : (Pool.mk 1 1).Ok ∧ (Pool.mk 0xF 4).Ok ∧ (Pool.mk 0x1F 5).Ok ∧ (Pool.mk 0xFFF 12).Ok := by
  unfold Pool.Ok; decide

/-! ### Witnesses: host accesses -/

/-- The address map at the edges of each range. -/
theorem witness_address_map :
    target ⟨16, 32⟩ 0 = .cmd ∧ target ⟨16, 32⟩ 1 = .status ∧ target ⟨16, 32⟩ 2 = .inLen ∧ target ⟨16, 32⟩ 3 = .outLen
      ∧ target ⟨16, 32⟩ 4 = .unmapped ∧ target ⟨16, 32⟩ 0x0FFFFFFF = .unmapped
      ∧ target ⟨16, 32⟩ 0x10000000 = .ibuf 0 ∧ target ⟨16, 32⟩ 0x1000000F = .ibuf 15
      ∧ target ⟨16, 32⟩ 0x10000010 = .unmapped ∧ target ⟨16, 32⟩ 0x20000000 = .obuf 0
      ∧ target ⟨16, 32⟩ 0x2000001F = .obuf 31 ∧ target ⟨16, 32⟩ 0x20000020 = .unmapped
      ∧ target ⟨16, 32⟩ 0x30000000 = .unmapped ∧ target ⟨16, 32⟩ 0xFFFFFFFF = .unmapped := by decide

/-- AcceptLatchesTheCommand, InLenIsAPlainRegister, IbufWriteStoresOneEntry and HostReadsReturnTheStoredValues while
IDLE, with index 15 of 16 and 31 of 32. -/
theorem witness_idle_access : State.reset.phase = .idle ∧ State.reset.cfg.wf = true
    ∧ (15 : Word).toNat < State.reset.cfg.ibufDepth ∧ (31 : Word).toNat < State.reset.cfg.obufDepth := by decide

/-- WritesWhileBusyAreDiscarded's three targets; IbufWriteStoresOneEntry and HostTurnWhileBusyTouchesOnlyDrop while
BUSY. -/
theorem witness_busy_access : atWalk.phase ≠ .idle ∧ atWalk.cfg.wf = true ∧ target atWalk.cfg 0 = .cmd
    ∧ target atWalk.cfg 2 = .inLen ∧ target atWalk.cfg 0x1000000F = .ibuf 15 := by decide

/-- IgnoredWritesChangeNothing's four targets. -/
theorem witness_ignored : target State.reset.cfg 0x10000010 = .unmapped ∧ target State.reset.cfg 1 = .status
    ∧ target State.reset.cfg 3 = .outLen ∧ target State.reset.cfg 0x2000001F = .obuf 31 := by decide

/-- UnmappedAddressesAreInert: the first and the last address of each of its four ranges. -/
theorem witness_unmapped :
    3 < (4 : Word).toNat ∧ (0x0FFFFFFF : Word).toNat < 0x10000000
      ∧ 0x10000000 + State.reset.cfg.ibufDepth ≤ (0x10000010 : Word).toNat ∧ (0x1FFFFFFF : Word).toNat < 0x20000000
      ∧ 0x20000000 + State.reset.cfg.obufDepth ≤ (0x20000020 : Word).toNat ∧ (0x2FFFFFFF : Word).toNat < 0x30000000
      ∧ 0x30000000 ≤ (0x30000000 : Word).toNat ∧ 0x30000000 ≤ (0xFFFFFFFF : Word).toNat := by decide

/-- HostReadsHaveNoSideEffect: an OBUF address while IDLE, and another address while BUSY. -/
theorem witness_read_again :
    (((∃ i, target State.reset.cfg 0x20000000 = .obuf i) → State.reset.phase = .idle))
      ∧ ((∃ i, target atWalk.cfg 1 = .obuf i) → atWalk.phase = .idle) :=
  ⟨fun _ => rfl, fun ⟨_, h⟩ => nomatch (by decide : target atWalk.cfg 1 = .status).symm.trans h⟩

/-! ### Witnesses: engine steps and commands -/

/-- CheckJudgesTheCommand: a state at CHECK for each branch (illegal word, too long, DECODE with a bad length, DECODE,
ENCODE). -/
theorem witness_check :
    (State.reset.accept 3).phase = .check ∧ decodeCmd (State.reset.accept 3).lCmd = .illegal .reservedOp
      ∧ (State.accept { State.reset with inLen := 17 } 1).cfg.ibufDepth
          < (State.accept { State.reset with inLen := 17 } 1).lLen.toNat
      ∧ (accepted (.decode true) [0x4D]).lLen.toNat % 8 ≠ 0
      ∧ decodeCmd (accepted (.decode false) [0x4D]).lCmd = .command (.decode false)
      ∧ decodeCmd (accepted (.encode true) [0x4D]).lCmd = .command (.encode true) := by decide

/-- FinishRecordsTheResult: a result that is not NOVALUE, and an index at floor(5·2/8) = 1. -/
theorem witness_finish : Result.ok ≠ .novalue ∧ 5 * atResid.lLen.toNat / 8 ≤ 1 := by decide

/-- ResidualBitsDecideTheVerdict: a pool of two zero bits, and one whose low bit is 1. -/
theorem witness_residual : atResid.phase = .dResid ∧ atResid.pool.Ok ∧ (Pool.mk 1 2).Ok := by
  unfold Pool.Ok; decide

/-- Launchable, of DecodeCommandComputesDecodeFn and EncodeCommandComputesEncodeFn, for `MY`. -/
theorem witness_launchable : Launchable (loaded [0x4D, 0x59]) [0x4D, 0x59] := by
  unfold Launchable Loaded; decide

/-- The same with the empty input, and with one that fills IBUF. -/
theorem witness_launchable_edges : Launchable (loaded []) []
    ∧ Launchable (loaded (List.replicate 16 0x41)) (List.replicate 16 0x41) := by
  unfold Launchable Loaded; decide

/-- OverlongInputIsErrLen at L_LEN = IBUF_DEPTH + 1. -/
theorem witness_overlong : (State.accept { State.reset with inLen := 17 } 1).phase = .check
    ∧ (State.accept { State.reset with inLen := 17 } 1).cfg.ibufDepth + 1
        = (State.accept { State.reset with inLen := 17 } 1).lLen.toNat := by decide

/-- IllegalWordIsErrCmd, for a reserved OP and for a reserved bit. -/
theorem witness_illegal : State.reset.cfg.wf = true ∧ (State.reset.accept 0).turns = []
    ∧ (State.reset.accept 0).phase = .check ∧ decodeCmd (State.reset.accept 0).lCmd = .illegal .reservedOp
    ∧ decodeCmd (State.reset.accept 9).lCmd = .illegal .reservedBits := by decide

/-- FirstCauseInR126OrderWins: its premises, and an input for each cause of one command word. -/
theorem witness_first_cause : (loaded [0x4D, 0x42]).phase = .idle ∧ (loaded [0x4D, 0x42]).cfg.wf = true
    ∧ Loaded (loaded [0x4D, 0x42]) [0x4D, 0x42]
    ∧ firstCause 16 3 [0x4D, 0x42] = .errCmd ∧ firstCause 1 2 [0x4D, 0x42] = .errLen
    ∧ firstCause 16 6 [0x4D, 0x42] = .novalue ∧ firstCause 16 2 [0x4D, 0x21] = .novalue
    ∧ firstCause 16 2 [0x4D, 0x42] = .novalue ∧ firstCause 16 2 [0x4D, 0x59] = .ok := by
  unfold Loaded; decide

/-- CommandFrame: commands that answer a next state with OK, with NOVALUE (`f` is no alphabet character) and with
ERR_LEN, each from a state the invariant holds of. -/
theorem witness_command_frame :
    (Inv (accepted (.encode true) [0x66])
      ∧ ∃ u, exec (.encode true) (accepted (.encode true) [0x66]) = .next u ∧ u.result = .ok)
    ∧ (Inv (accepted (.decode false) [0x66])
      ∧ ∃ u, exec (.decode false) (accepted (.decode false) [0x66]) = .next u ∧ u.result = .novalue) := by
  refine ⟨⟨(witness_inv_check _).1, ?_⟩, (witness_inv_check _).1, ?_⟩
  · obtain ⟨u, h, ho⟩ := exists_of_outcomeOf
      (o := exec (.encode true) (accepted (.encode true) [0x66]))
      (r := (.ok, 8, [0x4D, 0x59, 0x3D, 0x3D, 0x3D, 0x3D, 0x3D, 0x3D])) (by decide +kernel)
    exact ⟨u, h, congrArg (·.1) ho⟩
  · obtain ⟨u, h, ho⟩ := exists_of_outcomeOf
      (o := exec (.decode false) (accepted (.decode false) [0x66])) (r := (.novalue, 0, [])) (by decide +kernel)
    exact ⟨u, h, congrArg (·.1) ho⟩

theorem witness_command_frame_errLen :
    ∃ u, exec (.encode true) (State.accept { State.reset with inLen := 17 } 5) = .next u ∧ u.result = .errLen := by
  obtain ⟨u, h, ho⟩ := exists_of_outcomeOf
    (o := exec (.encode true) (State.accept { State.reset with inLen := 17 } 5)) (r := (.errLen, 0, []))
    (by decide +kernel)
  exact ⟨u, h, congrArg (·.1) ho⟩

theorem witness_inv_overlong : Inv (State.accept { State.reset with inLen := 17 } 5)
    ∧ decodeCmd (State.accept { State.reset with inLen := 17 } 5).lCmd = .command (.encode true) :=
  ⟨⟨by decide, by unfold BuffersOk; decide, Pool.empty_ok, statusOk_of_busy (by decide) rfl rfl rfl, by decide,
    ⟨rfl, rfl, rfl, rfl, rfl, rfl⟩⟩, by decide⟩

/-- EveryCommandFinishesWithinItsBound and RunCommand's claims: a running DECODE, past CHECK. -/
theorem witness_running : Inv atWalk ∧ atWalk.phase ≠ .idle ∧ decodeCmd atWalk.lCmd = .command (.decode false) :=
  ⟨witness_inv_dWalk.1, by decide, by decide⟩

/-! ### Witnesses: the two functions -/

/-- DecodedLengthLaw and DecodingIsTheBitStreamInBytes: `MY======` gives 66. -/
theorem witness_decodeFn : decodeFn [0x4D, 0x59, 0x3D, 0x3D, 0x3D, 0x3D, 0x3D, 0x3D] true = some [0x66] := by decide

/-- EmptyRangeDecodesToNothing: a length divisible by 8, with padding. -/
theorem witness_eight_pads : (List.replicate 8 (0x3D : Byte)).length % 8 = 0
    ∧ activeLength (List.replicate 8 0x3D) true = 2 := by decide

/-! ### Witnesses: the machine -/

/-- ResetTurnResetsEveryRegister, in the middle of a command. -/
theorem witness_reset_turn : (atWalk.withTurns [.reset, .host]).cfg.wf = true
    ∧ (atWalk.withTurns [.reset, .host]).turns = .reset :: [.host] := by decide

/-- StepRunsTheDecodedCommand, each of its four clauses; CollapsedCommandIsItsEngineTurns. -/
theorem witness_step_runs : atWalk.cfg.wf = true ∧ atWalk.turns = [] ∧ atWalk.phase ≠ .idle
    ∧ decodeCmd atWalk.lCmd = .command (.decode false)
    ∧ State.reset.cfg.wf = true ∧ State.reset.turns = [] ∧ State.reset.phase = .idle
    ∧ (atWalk.withTurns [.host]).turns = .host :: [] ∧ (atWalk.withTurns [.engine]).turns = .engine :: [] := by decide

/-- EveryStepKeepsTheInvariant and NoStepFaultsUnderTheInvariant: a whole command is one step from a state that meets
the invariant. -/
theorem witness_step_next : Inv (accepted (.encode true) [0x66])
    ∧ ∃ u, step (accepted (.encode true) [0x66]) = .next u ∧ u.result = .ok := by
  refine ⟨(witness_inv_check _).1, ?_⟩
  obtain ⟨u, h, ho⟩ := exists_of_outcomeOf (o := step (accepted (.encode true) [0x66]))
    (r := (.ok, 8, [0x4D, 0x59, 0x3D, 0x3D, 0x3D, 0x3D, 0x3D, 0x3D])) (by decide +kernel)
  exact ⟨u, h, congrArg (·.1) ho⟩

/-- ClockEdgeIsOneInterleaving: an idle block and a busy one. -/
theorem witness_clock_edge : State.reset.cfg.wf = true ∧ State.reset.turns = [] ∧ State.reset.script = []
    ∧ atWalk.turns = [] ∧ atWalk.script = [] ∧ atWalk.phase ≠ .idle := by decide

/-- ResultDependsOnTheInputAlone: two states that differ in IN_LEN, DROP and the outside world. -/
theorem witness_two_states : Inv (accepted (.encode true) [0x66])
    ∧ Inv { accepted (.encode true) [0x66] with drop := true, inLen := 9, reads := [1] }
    ∧ (accepted (.encode true) [0x66]).phase = .check
    ∧ (accepted (.encode true) [0x66]).input
        = State.input { accepted (.encode true) [0x66] with drop := true, inLen := 9, reads := [1] } :=
  ⟨(witness_inv_check _).1, ⟨by decide, by unfold BuffersOk; decide, Pool.empty_ok,
    statusOk_of_busy (by decide) rfl rfl rfl, by decide, ⟨rfl, rfl, rfl, rfl, rfl, rfl⟩⟩, rfl, rfl⟩

/-- NothingIsVisibleBeforeFinish and InputIsFrozenWhileBusy: an engine step that leaves the block busy. -/
theorem witness_busy_step : ∃ u, engineStep atWalk = .next u ∧ atWalk.phase ≠ .idle ∧ u.phase ≠ .idle
    ∧ step (atWalk.withTurns [.engine]) = .next u ∧ (atWalk.withTurns [.engine]).turns.head? ≠ some .reset
    ∧ ∀ i, target atWalk.cfg 1 ≠ .obuf i := by
  exact ⟨_, rfl, by decide, by decide, rfl, by decide,
    fun i h => nomatch (by decide : target atWalk.cfg 1 = .status).symm.trans h⟩

/-- ResultChangesOnlyAtFinishAcceptAndReset: FINISH, accept and reset each change RESULT somewhere. -/
theorem witness_result_changes :
    (∃ u, step atResid = .next u ∧ u.result ≠ atResid.result)
      ∧ (∃ u, step { loaded [] with done := true, result := .ok, script := [.wr 0 1] } = .next u ∧ u.result ≠ .ok)
      ∧ ∃ u, step { loaded [] with done := true, result := .ok, turns := [.reset] } = .next u ∧ u.result ≠ .ok :=
  ⟨⟨_, rfl, by decide⟩, ⟨_, rfl, by decide⟩, ⟨_, rfl, by decide⟩⟩

/-- DropIsSetOnlyByTheHostWhileBusy: a host turn while BUSY sets DROP; accept and reset clear it. -/
theorem witness_drop :
    (∃ u, step { atWalk with turns := [.host], script := [.wr 2 9] } = .next u ∧ atWalk.drop = false ∧ u.drop = true)
      ∧ (∃ u, step { loaded [] with done := true, result := .ok, drop := true, script := [.wr 0 1] } = .next u
          ∧ u.drop = false)
      ∧ ∃ u, step { atWalk with drop := true, turns := [.reset] } = .next u ∧ u.drop = false :=
  ⟨⟨_, rfl, rfl, rfl⟩, ⟨_, rfl, rfl⟩, ⟨_, rfl, rfl⟩⟩

/-- OnlyTheEngineWritesObuf: an engine turn, no reset, changes OBUF (E_FLUSH writes `Y`). -/
theorem witness_obuf_written : (atFlush.withTurns [.engine]).turns.head? ≠ some .reset
    ∧ ∃ u, step (atFlush.withTurns [.engine]) = .next u ∧ u.obuf ≠ atFlush.obuf :=
  ⟨by decide, _, rfl, by decide⟩

/-- The same for what an entry holds: OBUF[0], which held `Z`, is written with `M` (E_EMIT). -/
theorem witness_obuf_entry_changes : ∃ u, step { atEmit with turns := [.engine], obuf := [(0, 0x5A)] } = .next u
    ∧ u.obufByte 0 ≠ State.obufByte { atEmit with obuf := [(0, 0x5A)] } 0 :=
  ⟨_, rfl, by decide⟩

/-- LoadinLoadsTheInput, with an input that fills IBUF. -/
theorem witness_loadin : ∃ s : State, s.cfg.wf = true ∧ s.phase = .idle ∧ s.turns = []
    ∧ s.script = expandStmt (.loadin (List.replicate 16 0x41)) ∧ (List.replicate 16 (0x41 : Word)).length ≤ s.cfg.ibufDepth :=
  ⟨{ State.reset with script := expandStmt (.loadin (List.replicate 16 0x41)) }, by decide, rfl, rfl, rfl, by decide⟩

end Sys2Proof.Tests
end

section
/-! The host's guarded writes by case (10_state.md R22, R23), what can change RESULT (R24), and the statements about
both: O12, O13, O56. -/
namespace Sys2Proof.Machine

/-! ### Host writes, seen at the block -/

/-- The end of a host write touches h_rdata and the draw number alone. -/
@[simp] theorem State.afterWrite_block (s : State) : s.afterWrite.block = s.block := rfl

theorem guardedWrite_of_idle {s : State} (u : State) (h : s.phase = .idle) : s.guardedWrite u = u.afterWrite := by
  simp [State.guardedWrite, State.busy, h]

theorem guardedWrite_of_busy {s : State} (u : State) (h : s.phase ≠ .idle) :
    s.guardedWrite u = s.setDrop.afterWrite := by
  simp [State.guardedWrite, State.busy, h]

theorem target_cmdAddr (cfg : Config) : target cfg cmdAddr = .cmd := rfl

/-- Accept (R22): a write of `v` to CMD while IDLE. -/
theorem hostWrite_cmdAddr_of_idle {s : State} (v : Word) (h : s.phase = .idle) :
    hostWrite cmdAddr v s = (s.accept v).afterWrite := by
  rw [hostWrite, target_cmdAddr]
  exact guardedWrite_of_idle _ h

/-- R23, R25, 20_memory.md R46: while busy, a write to any of the guarded targets is discarded and sets DROP. -/
theorem hostWrite_of_busy {s : State} {a : Word} (v : Word) (h : s.phase ≠ .idle)
    (ha : target s.cfg a = .cmd ∨ target s.cfg a = .inLen ∨ ∃ i, target s.cfg a = .ibuf i) :
    hostWrite a v s = s.setDrop.afterWrite := by
  unfold hostWrite
  obtain e | e | ⟨i, e⟩ := ha <;> rw [e] <;> exact guardedWrite_of_busy _ h

/-! ### What can change RESULT -/

/-- A host write leaves RESULT alone, or it is an accept, which clears it (R22, R24). -/
theorem hostWrite_result (a v : Word) (s : State) :
    (hostWrite a v s).result = s.result
      ∨ (s.phase = .idle ∧ (hostWrite a v s).phase = .check ∧ (hostWrite a v s).result = .none) := by
  obtain e | ⟨_, e⟩ | ⟨h, _, e⟩ | ⟨_, _, e⟩ | ⟨_, _, _, e⟩ := hostWrite_cases a v s
  · exact .inl (by rw [e])
  · exact .inl (by simp [e])
  · exact .inr (by simp [e, h])
  · exact .inl (by simp [e])
  · exact .inl (by simp [e])

/-- A host turn leaves RESULT alone, or it is an accept, which clears it. -/
theorem hostTurn_result (s : State) :
    (hostTurn s).result = s.result
      ∨ (s.phase = .idle ∧ (hostTurn s).phase = .check ∧ (hostTurn s).result = .none) := by
  obtain e | ⟨t, ops, e⟩ := hostTurn_cases s <;> rw [e]
  · exact .inl rfl
  · obtain e | e := transact_cases t s <;> rw [e]
    · exact hostWrite_result t.addr t.wdata s
    · exact .inl (hostRead_result s t.addr)

/-- A block after FINISH: IDLE with DONE = 1 and a RESULT other than NONE (60_exceptions.md R125). -/
def Finished (u : State) : Prop := u.phase = .idle ∧ u.done = true ∧ u.result ≠ .none

/-- A run of engine steps leaves RESULT alone, or it ends in FINISH: after FINISH the block is IDLE and the engine takes
no further step. -/
theorem engineRun_result {c : Decoded} {n : Nat} {s u : State} (h : engineRun c n s = .next u) :
    u.result = s.result ∨ Finished u := by
  refine engineRun_induction (P := fun t => t.result = s.result ∨ Finished t) ?_ n s u (.inl rfl) h
  intro t t' ht hstep
  obtain ⟨hkept, _, _⟩ | ⟨hbusy, hfin⟩ := engineStepOf_result hstep
  · obtain hs | hf := ht
    · exact .inl (hkept.trans hs)
    · rw [engineStepOf, hf.1] at hstep
      exact .inr (Host.Outcome.next.inj hstep ▸ hf)
  · exact .inr hfin

/-- A running command, legal word or not, leaves RESULT alone or ends in FINISH. -/
theorem runCommand_result {s u : State} (h : runCommand s = .next u) : u.result = s.result ∨ Finished u := by
  unfold runCommand at h
  split at h
  · rw [exec_eq_engineRun] at h
    exact engineRun_result h
  · obtain ⟨hkept, _, _⟩ | ⟨_, hfin⟩ := engineStepOf_result h
    · exact .inl hkept
    · exact .inr hfin

/-! ### The statements -/

/-- Settles O12: the write is an accept, whose record update is the statement's. -/
theorem acceptLatchesTheCommand : Obligations.AcceptLatchesTheCommand := by
  intro s v hidle
  rw [hostWrite_cmdAddr_of_idle v hidle, State.afterWrite_block]
  rfl

/-- Settles O13: each of the three targets is guarded, so the busy block only sets DROP. -/
theorem writesWhileBusyAreDiscarded : Obligations.WritesWhileBusyAreDiscarded := by
  intro s a v hbusy ha
  rw [hostWrite_of_busy v hbusy ha, State.afterWrite_block]
  rfl

/-- Settles O56, by the kind of turn: a host turn can only accept, an engine step or a whole command can only FINISH. -/
theorem resultChangesOnlyAtFinishAcceptAndReset : Obligations.ResultChangesOnlyAtFinishAcceptAndReset := by
  intro s u hstep hne
  obtain ⟨r, _, rfl⟩ | ⟨r, _, heng⟩ | ⟨r, hturns, rfl⟩ | ⟨_, hbusy, hrun⟩ | ⟨_, _, rfl⟩ := step_cases hstep
  · exact .inr (.inl ((hostTurn_result (s.withTurns r)).resolve_left hne))
  · obtain ⟨hkept, _, _⟩ | hfin := engineStepOf_result heng
    · exact absurd hkept hne
    · exact .inr (.inr hfin)
  · exact .inl ⟨by simp [hturns], rfl⟩
  · exact .inr (.inr ⟨hbusy, (runCommand_result hrun).resolve_left hne⟩)
  · exact .inr (.inl ((hostTurn_result s).resolve_left hne))

end Sys2Proof.Machine
end


section
/-! The address map region by region (20_memory.md R43 to R45), what a write to an IBUF entry leaves (R46), and the
statements about both: O11, O15, O17. -/
namespace Sys2Proof.Machine

/-! ### The address map, in the terms of the address's number -/

/-- Each buffer's window lies inside its region of 2^28 words (00_scope.md R7). -/
theorem Config.depths_le {cfg : Config} (h : cfg.wf = true) :
    cfg.ibufDepth ≤ 0x10000000 ∧ cfg.obufDepth ≤ 0x10000000 := by
  simp only [Config.wf, Bool.and_eq_true, decide_eq_true_eq] at h
  omega

/-- The map by the numbers of the region and the index (20_memory.md R43). -/
theorem target_eq (cfg : Config) (a : Word) :
    target cfg a =
      if a.toNat / 2 ^ 28 = 0 then registerAt (a.extractLsb 27 0)
      else if a.toNat / 2 ^ 28 = 1 ∧ a.toNat % 2 ^ 28 < cfg.ibufDepth then .ibuf (a.toNat % 2 ^ 28)
      else if a.toNat / 2 ^ 28 = 2 ∧ a.toNat % 2 ^ 28 < cfg.obufDepth then .obuf (a.toNat % 2 ^ 28)
      else .unmapped := by
  simp only [target, BitVec.toNat_eq, region_toNat, index_toNat]
  rfl

/-- Region 0: the four registers (20_memory.md R44). -/
theorem target_registers (cfg : Config) {a : Word} (h : a.toNat < 0x10000000) :
    target cfg a =
      if a.toNat = 0 then .cmd else if a.toNat = 1 then .status
      else if a.toNat = 2 then .inLen else if a.toNat = 3 then .outLen else .unmapped := by
  have hregion : a.toNat / 2 ^ 28 = 0 := by omega
  have hindex : a.toNat % 2 ^ 28 = a.toNat := by omega
  rw [target_eq, if_pos hregion]
  simp only [registerAt, BitVec.toNat_eq, index_toNat, hindex]
  rfl

/-- Region 1: the IBUF window. -/
theorem target_ibufWindow (cfg : Config) {a : Word} (hlo : 0x10000000 ≤ a.toNat) (hhi : a.toNat < 0x20000000) :
    target cfg a =
      if a.toNat < 0x10000000 + cfg.ibufDepth then .ibuf (a.toNat - 0x10000000) else .unmapped := by
  have hregion : a.toNat / 2 ^ 28 = 1 := by omega
  have hindex : a.toNat % 2 ^ 28 = a.toNat - 0x10000000 := by omega
  rw [target_eq, hregion, hindex]
  simp [Nat.sub_lt_iff_lt_add' hlo]

/-- Region 2: the OBUF window. -/
theorem target_obufWindow (cfg : Config) {a : Word} (hlo : 0x20000000 ≤ a.toNat) (hhi : a.toNat < 0x30000000) :
    target cfg a =
      if a.toNat < 0x20000000 + cfg.obufDepth then .obuf (a.toNat - 0x20000000) else .unmapped := by
  have hregion : a.toNat / 2 ^ 28 = 2 := by omega
  have hindex : a.toNat % 2 ^ 28 = a.toNat - 0x20000000 := by omega
  rw [target_eq, hregion, hindex]
  simp [Nat.sub_lt_iff_lt_add' hlo]

/-- Regions 3 to 15 (20_memory.md R45). -/
theorem target_above (cfg : Config) {a : Word} (h : 0x30000000 ≤ a.toNat) : target cfg a = .unmapped := by
  have hregion : 3 ≤ a.toNat / 2 ^ 28 := by omega
  rw [target_eq, if_neg (by omega), if_neg (by omega), if_neg (by omega)]

/-- `ibufAddr i` is the address of IBUF[i] (20_memory.md R43). -/
theorem target_ibufAddr {cfg : Config} {i : Word} (hcfg : cfg.wf = true) (hi : i.toNat < cfg.ibufDepth) :
    target cfg (ibufAddr i) = .ibuf i.toNat := by
  obtain ⟨hdepth, _⟩ := Config.depths_le hcfg
  have haddr : (ibufAddr i).toNat = 0x10000000 + i.toNat := by
    rw [ibufAddr]
    bv_omega
  rw [target_ibufWindow cfg (by omega) (by omega), haddr, if_pos (by omega), Nat.add_sub_cancel_left]

/-! ### What an access to one target does -/

/-- R46: a write to an IBUF entry while IDLE stores the low byte. -/
theorem hostWrite_ibuf_of_idle {s : State} {a : Word} {i : Nat} (v : Word) (h : s.phase = .idle)
    (ha : target s.cfg a = .ibuf i) :
    hostWrite a v s = State.afterWrite { s with ibuf := s.ibuf.store i (v.extractLsb 7 0) } := by
  rw [hostWrite, ha]
  exact guardedWrite_of_idle _ h

/-- The end of a host write leaves what every IBUF entry holds. -/
@[simp] theorem State.afterWrite_ibufByte (s : State) (i : Nat) : s.afterWrite.ibufByte i = s.ibufByte i := rfl

/-- A stored IBUF entry holds its new value. -/
@[simp] theorem State.ibufByte_store_self (s : State) (i : Nat) (b : Byte) :
    State.ibufByte { s with ibuf := s.ibuf.store i b } i = b := by
  simp [State.ibufByte]

/-- The other IBUF entries hold what they held. -/
theorem State.ibufByte_store_other (s : State) {i j : Nat} (b : Byte) (h : j ≠ i) :
    State.ibufByte { s with ibuf := s.ibuf.store i b } j = s.ibufByte j := by
  simp [State.ibufByte, Memory.stored_store_other _ _ h]

/-- R45: at an unmapped address a write changes nothing and a read returns 0. -/
theorem access_unmapped {s : State} {a : Word} (v : Word) (ha : target s.cfg a = .unmapped) :
    hostWrite a v s = s ∧ hostReadValue a s = 0 := by
  rw [hostWrite, hostReadValue, ha]
  exact ⟨rfl, rfl⟩

/-! ### The statements -/

/-- Settles O11, region by region: the tabulated windows that lie in other regions do not hold the address. -/
theorem addressMapSelectsAsTabulated : Obligations.AddressMapSelectsAsTabulated := by
  intro cfg a hcfg
  obtain ⟨hi, ho⟩ := Config.depths_le hcfg
  obtain h | ⟨hlo, hhi⟩ | ⟨hlo, hhi⟩ | h :
      a.toNat < 0x10000000 ∨ (0x10000000 ≤ a.toNat ∧ a.toNat < 0x20000000)
        ∨ (0x20000000 ≤ a.toNat ∧ a.toNat < 0x30000000) ∨ 0x30000000 ≤ a.toNat := by omega
  · rw [target_registers cfg h]
    simp (disch := omega) only [if_neg]
  · rw [target_ibufWindow cfg hlo hhi]
    simp (disch := omega) only [if_neg, hlo, true_and]
  · rw [target_obufWindow cfg hlo hhi]
    simp (disch := omega) only [if_neg, hlo, true_and]
  · rw [target_above cfg h]
    simp (disch := omega) only [if_neg]

/-- Settles O15: while IDLE one entry is stored; while BUSY the write is discarded and sets DROP. -/
theorem ibufWriteStoresOneEntry : Obligations.IbufWriteStoresOneEntry := by
  intro s i v hcfg hi
  have ha := target_ibufAddr hcfg hi
  constructor
  · intro hidle
    rw [hostWrite_ibuf_of_idle v hidle ha]
    exact ⟨by simp, fun j hj => by simp [State.ibufByte_store_other s _ hj], rfl⟩
  · intro hbusy
    rw [hostWrite_of_busy v hbusy (.inr (.inr ⟨_, ha⟩))]
    rfl

/-- Settles O17: each of the four ranges of R45 is the unmapped part of its region. -/
theorem unmappedAddressesAreInert : Obligations.UnmappedAddressesAreInert := by
  intro s a v _ hrange
  refine access_unmapped v ?_
  obtain ⟨hlo, hhi⟩ | ⟨hlo, hhi⟩ | ⟨hlo, hhi⟩ | h := hrange
  · rw [target_registers s.cfg hhi]
    simp (disch := omega) only [if_neg]
  · rw [target_ibufWindow s.cfg (by omega) hhi, if_neg (by omega)]
  · rw [target_obufWindow s.cfg (by omega) hhi, if_neg (by omega)]
  · exact target_above s.cfg h

end Sys2Proof.Machine
end


section
/-! The command word by its three fields RSV, P and OP (30_encoding.md R67), and the statement about its legal values
(R68): O2. -/
namespace Sys2Proof

/-- A word is its RSV, P and OP fields, bit 31 first (30_encoding.md R67). -/
theorem word_eq_fields (w : Word) :
    w = w.extractLsb 31 3 ++ BitVec.ofBool (w.getLsbD 2) ++ w.extractLsb 1 0 := by
  refine BitVec.eq_of_getLsbD_eq fun k hk => ?_
  rw [BitVec.getLsbD_append, BitVec.getLsbD_append]
  obtain hop | rfl | hrsv : k < 2 ∨ k = 2 ∨ 3 ≤ k := by omega
  · simp [hop]
  · simp
  · have hback : 3 + (k - 2 - 1) = k := by omega
    rw [if_neg (by omega), if_neg (by omega)]
    simp [hback, Nat.le_of_lt_succ hk]

/-- A command's word decodes to it. -/
theorem decodeCmd_encode (i : Instr) : decodeCmd (encode i) = .command i := by
  obtain pad | pad := i <;> cases pad <;> decide

/-- A word that decodes to a command is that command's word: the checks of R69 fix RSV and OP, and P is read off. -/
theorem eq_encode_of_decodeCmd {w : Word} {i : Instr} (h : decodeCmd w = .command i) : w = encode i := by
  unfold decodeCmd at h
  split_ifs at h with hrsv hop hop'
  · cases h
    rw [encode, ← not_not.mp hrsv, ← hop]
    exact word_eq_fields w
  · cases h
    rw [encode, ← not_not.mp hrsv, ← hop']
    exact word_eq_fields w

/-- Settles O2: decoding inverts encoding on both sides. -/
theorem fourWordsAreTheOnlyEncodings : Obligations.FourWordsAreTheOnlyEncodings := by
  refine ⟨fun w i => ⟨eq_encode_of_decodeCmd, ?_⟩, by decide⟩
  rintro rfl
  exact decodeCmd_encode i

end Sys2Proof
end


section
/-! The statements about PUSH and POP (40_bitpool.md R82, R83): O7 and O8. The bounds R81 puts on the pool carry both, at
every width that meets the precondition. -/
namespace Sys2Proof.Machine

/-- R83, "no information is lost": POP cuts the pool into quotient and remainder by the weight of the bits that stay. -/
theorem Pool.bits_eq_top_mul_add_pop {k : Nat} {p : Pool} (hp : p.Ok) (h : k ≤ p.cnt.toNat) :
    p.bits.toNat = (p.top k).toNat * 2 ^ (p.cnt.toNat - k) + (p.pop k).bits.toNat := by
  rw [Pool.top_toNat hp h, Pool.pop_bits, Nat.div_add_mod']

/-- Settles O7: under R82's precondition neither POOL nor CNT is truncated. -/
theorem pushAppendsBelow : Obligations.PushAppendsBelow := by
  intro n p v _ hp hfits
  exact ⟨Pool.push_bits v hp hfits, Pool.push_cnt v hfits, Pool.push_ok v hp hfits⟩

/-- Settles O8, by the quotient and remainder POP leaves. -/
theorem popTakesTheOldestBits : Obligations.PopTakesTheOldestBits := by
  intro k p _ hp hholds
  exact ⟨Pool.bits_eq_top_mul_add_pop hp hholds, Pool.pop_cnt p, Pool.pop_ok hp⟩

end Sys2Proof.Machine
end


section
/-! DECODE's own rules (41_decode.md): pad stripping as a recursion on the symbols that may still go (R92), the D_WALK
step under its bounds (R101), and the statements about both and about D_RESID (R102): O25, O26, O41. -/
namespace Sys2Proof.Machine

/-! ### Pad stripping (R92) -/

theorem stripPads_le (t : List Byte) (fuel e : Nat) : stripPads t fuel e ≤ e := by
  fun_induction stripPads t fuel e with
  | case3 fuel e _ ih => exact Nat.le_succ_of_le ih
  | case1 | case2 | case4 => exact le_rfl

/-- At most `fuel` characters are removed. -/
theorem le_stripPads_add_fuel (t : List Byte) (fuel e : Nat) : e ≤ stripPads t fuel e + fuel := by
  fun_induction stripPads t fuel e with
  | case3 fuel e _ ih => exact Nat.succ_le_succ ih
  | case1 | case2 | case4 => omega

/-- Everything removed is a pad symbol: the last character of the range by the rule's test, those before it by the rest
of the stripping. -/
theorem pad_of_stripPads_le {t : List Byte} {fuel e j : Nat} (hlo : stripPads t fuel e ≤ j) (hhi : j < e) :
    t[j]? = some padCode := by
  fun_induction stripPads t fuel e with
  | case3 fuel e hpad ih =>
    obtain hlt | rfl := Nat.lt_succ_iff_lt_or_eq.mp hhi
    · exact ih hlo hlt
    · exact hpad
  | case1 | case2 | case4 => omega

/-- Stripping stops only at its limit, at the empty range, or at a character that is no pad symbol. -/
theorem stripPads_stop (t : List Byte) (fuel e : Nat) :
    e = stripPads t fuel e + fuel ∨ stripPads t fuel e = 0 ∨ t[stripPads t fuel e - 1]? ≠ some padCode := by
  fun_induction stripPads t fuel e with
  | case1 => exact .inl rfl
  | case2 => exact .inr (.inl rfl)
  | case3 fuel e _ ih => exact ih.imp_left (congrArg (· + 1))
  | case4 fuel e hother => exact .inr (.inr hother)

/-! ### The D_WALK step (R101) -/

theorem engineStep_dWalk {s : State} (h : s.phase = .dWalk) : engineStep s = stepDWalk s := by
  simp [engineStep, engineStepOf, h]

theorem engineStep_dResid {s : State} (h : s.phase = .dResid) : engineStep s = stepDResid s := by
  simp [engineStep, engineStepOf, h]

/-- OBUF has room for the byte that index `o` receives while an input of at most IBUF_DEPTH characters is decoded
(00_scope.md R8). -/
theorem Config.lt_obufDepth_of_decoded {cfg : Config} {i o : Nat} (hcfg : cfg.wf = true) (hi : i < cfg.ibufDepth)
    (ho : 8 * o ≤ 5 * i) : o < cfg.obufDepth := by
  simp only [Config.wf, Bool.and_eq_true, decide_eq_true_eq] at hcfg
  obtain ⟨⟨_, hdepths⟩, _⟩ := hcfg
  rw [ceilDiv] at hdepths
  omega

/-- A symbol that meets PUSH's precondition, with room in OBUF, is pushed, and a full byte goes to OBUF. -/
theorem acceptSymbol_eq {v : BitVec 5} {s : State} (hfits : s.pool.cnt.toNat + 5 ≤ 12)
    (hroom : s.opos.toNat < s.cfg.obufDepth) :
    acceptSymbol v s = .next
      (if 8 ≤ (s.pool.push v).cnt.toNat then
        { s with
          pool := (s.pool.push v).pop 8, ipos := s.ipos + 1
          obuf := s.obuf.store s.opos.toNat ((s.pool.push v).top 8), opos := s.opos + 1 }
      else { s with pool := s.pool.push v, ipos := s.ipos + 1 }) := by
  rw [acceptSymbol, if_pos (Pool.fits_iff.mpr hfits)]
  simp only [Pool.holds_iff]
  split
  · exact emit_eq_next.mpr ⟨hroom, rfl⟩
  · rfl

/-- R81, R88: in D_WALK before the end of the active range, IPOS lies in IBUF, the pool takes five more bits, and OPOS
lies in OBUF. -/
theorem dWalk_bounds {s : State} (hinv : Inv s) (hphase : s.phase = .dWalk) (hend : s.ipos ≠ s.aend) :
    s.ipos.toNat < s.cfg.ibufDepth ∧ s.pool.cnt.toNat + 5 ≤ 12 ∧ s.opos.toNat < s.cfg.obufDepth := by
  obtain ⟨hcfg, _, _, _, _, hph⟩ := hinv
  rw [PhaseOk, hphase] at hph
  obtain ⟨_, _, hlen, hrange, hle, hcount, hcnt⟩ := hph
  have hne : s.ipos.toNat ≠ s.aend.toNat := fun h => hend (BitVec.eq_of_toNat_eq h)
  have hread : s.ipos.toNat < s.cfg.ibufDepth := by omega
  exact ⟨hread, by omega, Config.lt_obufDepth_of_decoded hcfg hread (by omega)⟩

/-! ### The statements -/

/-- Settles O25, by R101's branches: the end of the range, no value, or a symbol taken within the invariant's bounds. -/
theorem walkStepDecodesOneCharacter : Obligations.WalkStepDecodesOneCharacter := by
  intro s hinv hphase
  rw [engineStep_dWalk hphase]
  by_cases hend : s.ipos = s.aend
  · rw [stepDWalk, if_pos hend, if_pos hend]
  · obtain ⟨hread, hfits, hroom⟩ := dWalk_bounds hinv hphase hend
    rw [stepDWalk, if_neg hend, if_neg hend, engineRead_eq_some.mpr ⟨hread, rfl⟩]
    dsimp only
    cases rlut (s.ibufByte s.ipos.toNat) with
    | none => rfl
    | some v => exact acceptSymbol_eq hfits hroom

/-- Settles O41: the four facts about stripping, with R92's limit of six and the whole text as the range. -/
theorem padStrippingRemovesTrailingPads : Obligations.PadStrippingRemovesTrailingPads := by
  intro t
  exact ⟨rfl, stripPads_le t 6 t.length, le_stripPads_add_fuel t 6 t.length, fun _ => pad_of_stripPads_le,
    stripPads_stop t 6 t.length⟩

/-- Settles O26: under R81 the residual bits are zero exactly when POOL is. -/
theorem residualBitsDecideTheVerdict : Obligations.ResidualBitsDecideTheVerdict := by
  intro s hphase hpool
  rw [engineStep_dResid hphase, stepDResid]
  simp only [Pool.residueZero_iff hpool]
  split <;> rfl

end Sys2Proof.Machine
end


section
/-! ENCODE's own rules (42_encode.md): the room R8 leaves in OBUF, where each step of the encode stands under the
invariant (R88), and the statements about the four steps (R112 to R115): O27, O28. -/
namespace Sys2Proof.Machine

theorem engineStep_eWalk {s : State} (h : s.phase = .eWalk) : engineStep s = stepEWalk s := by
  simp [engineStep, engineStepOf, h]

theorem engineStep_eEmit {s : State} (h : s.phase = .eEmit) : engineStep s = stepEEmit s := by
  simp [engineStep, engineStepOf, h]

theorem engineStep_eFlush {s : State} (h : s.phase = .eFlush) : engineStep s = stepEFlush s := by
  simp [engineStep, engineStepOf, h]

theorem engineStep_ePad {s : State} (h : s.phase = .ePad) : engineStep s = stepEPad s := by
  simp [engineStep, engineStepOf, h]

/-! ### Room in OBUF (00_scope.md R8) -/

/-- OBUF holds the padded encoding of every input that fits IBUF. -/
theorem Config.encoded_le_obufDepth {cfg : Config} {len : Nat} (hcfg : cfg.wf = true) (hlen : len ≤ cfg.ibufDepth) :
    8 * ceilDiv len 5 ≤ cfg.obufDepth := by
  simp only [Config.wf, Bool.and_eq_true, decide_eq_true_eq] at hcfg
  obtain ⟨⟨_, hdepths⟩, _⟩ := hcfg
  rw [ceilDiv] at hdepths ⊢
  omega

/-- The padded encoding is the longer one. -/
theorem encodedLength_le (pad : Bool) (len : Nat) : encodedLength pad len ≤ 8 * ceilDiv len 5 := by
  cases pad with
  | true => exact le_rfl
  | false =>
    simp only [encodedLength, quintets, ceilDiv, Bool.false_eq_true, if_false]
    omega

/-- R88: a bit that is still in the pool is one of the input's, so the symbol it goes into has its place in OBUF. -/
theorem Encoding.opos_lt_obufDepth {s : State} (henc : Encoding s) (hcfg : s.cfg.wf = true)
    (hcnt : 1 ≤ s.pool.cnt.toNat) : s.opos.toNat < s.cfg.obufDepth := by
  obtain ⟨_, _, hlen, _, hipos, hcount⟩ := henc
  have hfit := Config.encoded_le_obufDepth hcfg hlen
  rw [ceilDiv] at hfit
  omega

/-! ### Where each step stands under the invariant -/

/-- R88, R107: in E_WALK before the end of the input, IPOS lies in IBUF and the pool takes eight more bits. -/
theorem eWalk_bounds {s : State} (hinv : Inv s) (hphase : s.phase = .eWalk) (hend : s.ipos ≠ s.lLen) :
    s.ipos.toNat < s.cfg.ibufDepth ∧ s.pool.cnt.toNat + 8 ≤ 12 := by
  obtain ⟨_, _, _, _, _, hph⟩ := hinv
  rw [PhaseOk, hphase] at hph
  obtain ⟨⟨_, _, hlen, _, hipos, _⟩, hcnt⟩ := hph
  have hne : s.ipos.toNat ≠ s.lLen.toNat := fun h => hend (BitVec.eq_of_toNat_eq h)
  omega

/-- In E_EMIT with a quintet in the pool, OPOS lies in OBUF. -/
theorem eEmit_room {s : State} (hinv : Inv s) (hphase : s.phase = .eEmit) (hcnt : 5 ≤ s.pool.cnt.toNat) :
    s.opos.toNat < s.cfg.obufDepth := by
  obtain ⟨hcfg, _, _, _, _, hph⟩ := hinv
  rw [PhaseOk, hphase] at hph
  exact hph.opos_lt_obufDepth hcfg (by omega)

/-- R108: in E_FLUSH at most four bits remain, and with any of them OPOS lies in OBUF. -/
theorem eFlush_bounds {s : State} (hinv : Inv s) (hphase : s.phase = .eFlush) :
    s.pool.cnt.toNat ≤ 4 ∧ (1 ≤ s.pool.cnt.toNat → s.opos.toNat < s.cfg.obufDepth) := by
  obtain ⟨hcfg, _, _, _, _, hph⟩ := hinv
  rw [PhaseOk, hphase] at hph
  obtain ⟨henc, hcnt, _⟩ := hph
  exact ⟨hcnt, henc.opos_lt_obufDepth hcfg⟩

/-- In E_PAD, ETOTAL lies within OBUF. -/
theorem ePad_etotal_le {s : State} (hinv : Inv s) (hphase : s.phase = .ePad) : s.etotal.toNat ≤ s.cfg.obufDepth := by
  obtain ⟨hcfg, _, _, _, _, hph⟩ := hinv
  rw [PhaseOk, hphase] at hph
  obtain ⟨pad, _, hlen, htotal, _⟩ := hph
  exact htotal ▸ (encodedLength_le pad _).trans (Config.encoded_le_obufDepth hcfg hlen)

/-! ### The statements -/

/-- Settles O27, by the branches of R112 and R113: within the invariant's bounds no read, PUSH or write is out of range. -/
theorem encodeWalkPushesAndEmits : Obligations.EncodeWalkPushesAndEmits := by
  refine fun s hinv => ⟨fun hphase => ?_, fun hphase => ?_⟩
  · rw [engineStep_eWalk hphase, stepEWalk]
    by_cases hend : s.ipos = s.lLen
    · rw [if_pos hend, if_pos hend]
    · obtain ⟨hread, hfits⟩ := eWalk_bounds hinv hphase hend
      rw [if_neg hend, if_neg hend, engineRead_eq_some.mpr ⟨hread, rfl⟩]
      exact if_pos (Pool.fits_iff.mpr hfits)
  · rw [engineStep_eEmit hphase, stepEEmit]
    simp only [Pool.holds_iff]
    split
    · next hcnt =>
      have hroom := eEmit_room hinv hphase hcnt
      exact emit_eq_next.mpr ⟨hroom, rfl⟩
    · rfl

/-- Settles O28, by the branches of R114 and R115: FLUSH5 meets its precondition and every symbol has its place in OBUF. -/
theorem encodeFlushesAndPads : Obligations.EncodeFlushesAndPads := by
  refine fun s hinv => ⟨fun hphase => ?_, fun hphase => ?_⟩
  · obtain ⟨hcnt, hroom⟩ := eFlush_bounds hinv hphase
    have hquintet : ¬ 5 ≤ s.pool.cnt.toNat := by omega
    rw [engineStep_eFlush hphase, stepEFlush]
    simp only [Pool.holds_iff, if_neg hquintet]
    split
    · next hone => exact emit_eq_next.mpr ⟨hroom hone, rfl⟩
    · rfl
  · rw [engineStep_ePad hphase, stepEPad]
    split
    · next hpos => exact emit_eq_next.mpr ⟨hpos.trans_le (ePad_etotal_le hinv hphase), rfl⟩
    · rfl

end Sys2Proof.Machine
end


section
/-! The CHECK step (60_exceptions.md R124) and the statement about it: O22. -/
namespace Sys2Proof.Machine

theorem engineStep_check {s : State} (h : s.phase = .check) : engineStep s = stepCheck (decodeCmd s.lCmd) s := by
  simp [engineStep, engineStepOf, h]

/-- Settles O22, by R124's branches: the word, the length against IBUF_DEPTH, the command. -/
theorem checkJudgesTheCommand : Obligations.CheckJudgesTheCommand := by
  intro s hphase
  rw [engineStep_check hphase]
  cases decodeCmd s.lCmd with
  | illegal why => rfl
  | command i =>
    by_cases hlong : s.cfg.ibufDepth < s.lLen.toNat
    · simp only [stepCheck, if_pos hlong]
    · simp only [stepCheck, if_neg hlong]
      cases i with
      | encode pad => rfl
      | decode pad =>
        simp only [checkDecode]
        split <;> rfl

end Sys2Proof.Machine
end


section
/-! The result of DecodeFn's walk (41_decode.md R90), one character at a time, and the causes of R126 that it decides. -/
namespace Sys2Proof.Machine

/-- The result for the bits that remain after the last symbol (R102). -/
def Pool.verdict (p : Pool) : Result := if p.residueZero then .ok else .novalue

/-- The result of DecodeFn's walk over the characters `cs` from the pool `p`. -/
def walkVerdict (p : Pool) (cs : List Byte) : Result :=
  match decodeWalk p [] cs with
  | none => .novalue
  | some (q, _) => q.verdict

/-- The pool after one symbol: a full byte leaves it at once (R101). -/
def Pool.afterSymbol (p : Pool) (v : BitVec 5) : Pool :=
  if 8 ≤ (p.push v).cnt.toNat then (p.push v).pop 8 else p.push v

theorem decodeWalk_cons_none {c : Byte} (hc : rlut c = none) (p : Pool) (out cs : List Byte) :
    decodeWalk p out (c :: cs) = none := by
  rw [decodeWalk, hc]

/-- One symbol of the walk: the pool moves on, and the output with it. -/
theorem decodeWalk_cons_some {c : Byte} {v : BitVec 5} (hc : rlut c = some v) (p : Pool) (out cs : List Byte) :
    ∃ out', decodeWalk p out (c :: cs) = decodeWalk (p.afterSymbol v) out' cs := by
  rw [decodeWalk, hc, Pool.afterSymbol]
  simp only [Pool.holds_iff]
  split
  · exact ⟨_, rfl⟩
  · exact ⟨_, rfl⟩

/-- The bytes already decoded do not reach the pool. -/
theorem decodeWalk_pool (p : Pool) (out out' cs : List Byte) :
    (decodeWalk p out cs).map Prod.fst = (decodeWalk p out' cs).map Prod.fst := by
  induction cs generalizing p out out' with
  | nil => rfl
  | cons c cs ih =>
    cases hc : rlut c with
    | none => rw [decodeWalk_cons_none hc, decodeWalk_cons_none hc]
    | some v =>
      obtain ⟨o, ho⟩ := decodeWalk_cons_some hc p out cs
      obtain ⟨o', ho'⟩ := decodeWalk_cons_some hc p out' cs
      rw [ho, ho']
      exact ih _ o o'

/-- A character outside the alphabet leaves the walk without a value (R94). -/
theorem decodeWalk_eq_none {cs : List Byte} (h : cs.any (fun c => rlut c = none)) (p : Pool) (out : List Byte) :
    decodeWalk p out cs = none := by
  induction cs generalizing p out with
  | nil => simp at h
  | cons c cs ih =>
    cases hc : rlut c with
    | none => exact decodeWalk_cons_none hc p out cs
    | some v =>
      obtain ⟨out', hwalk⟩ := decodeWalk_cons_some hc p out cs
      rw [hwalk]
      exact ih (by simpa [hc] using h) _ _

theorem walkVerdict_eq_pool (p : Pool) (out cs : List Byte) :
    walkVerdict p cs = ((decodeWalk p out cs).map Prod.fst).elim .novalue Pool.verdict := by
  rw [decodeWalk_pool p out [], walkVerdict]
  cases decodeWalk p [] cs <;> rfl

theorem walkVerdict_nil (p : Pool) : walkVerdict p [] = p.verdict := rfl

theorem walkVerdict_cons_none {c : Byte} (hc : rlut c = none) (p : Pool) (cs : List Byte) :
    walkVerdict p (c :: cs) = .novalue := by
  rw [walkVerdict, decodeWalk_cons_none hc]

theorem walkVerdict_cons_some {c : Byte} {v : BitVec 5} (hc : rlut c = some v) (p : Pool) (cs : List Byte) :
    walkVerdict p (c :: cs) = walkVerdict (p.afterSymbol v) cs := by
  obtain ⟨out, hwalk⟩ := decodeWalk_cons_some hc p [] cs
  rw [walkVerdict_eq_pool p [], hwalk, ← walkVerdict_eq_pool]

/-- R126's causes 3 to 6 for a legal DECODE within IBUF_DEPTH: after the length check the walk alone decides. -/
theorem firstCause_decode {depth : Nat} {w : Word} {t : List Byte} {pad : Bool}
    (hw : decodeCmd w = .command (.decode pad)) (hlen : t.length ≤ depth) :
    firstCause depth w t =
      if pad = true ∧ t.length % 8 ≠ 0 then .novalue else walkVerdict .empty (t.take (activeLength t pad)) := by
  simp only [firstCause, hw, if_neg (Nat.not_lt.mpr hlen)]
  by_cases hpad : pad = true ∧ t.length % 8 ≠ 0
  · rw [if_pos hpad, if_pos hpad]
  · rw [if_neg hpad, if_neg hpad, decodeFn, if_neg hpad]
    split
    · next hany => rw [walkVerdict, decodeWalk_eq_none hany]
    · rw [walkVerdict]
      cases decodeWalk .empty [] (t.take (activeLength t pad)) with
      | none => rfl
      | some r =>
        cases hzero : r.1.residueZero <;> simp [Pool.verdict, hzero]

end Sys2Proof.Machine
end


section
/-! A command from accept to FINISH: what the engine needs to hold of a state, how many steps the command has left there
and the result it is bound for. Every engine step keeps the first, takes from the second and keeps the third, so that a
command records the first cause of 60_exceptions.md R126: O33. -/
namespace Sys2Proof.Machine

/-! ### The input the engine reads -/

theorem State.length_input (s : State) : s.input.length = s.lLen.toNat := by simp [State.input]

theorem State.getElem?_input (s : State) {i : Nat} (h : i < s.lLen.toNat) : s.input[i]? = some (s.ibufByte i) := by
  simp [State.input, h]

/-- The characters still to be walked, with the next one in front. -/
theorem State.drop_take_input (s : State) {i e : Nat} (hi : i < e) (he : e ≤ s.lLen.toNat) :
    (s.input.take e).drop i = s.ibufByte i :: (s.input.take e).drop (i + 1) := by
  have hlt : i < (s.input.take e).length := by
    rw [List.length_take, s.length_input]
    omega
  rw [List.drop_eq_getElem_cons hlt]
  simp [State.input]

/-- A round of the stripping (R92, R100): NSTRIP counts the pad symbols removed. -/
theorem State.stripPads_round (s : State) {n e : Nat} (hn : n < 6) (he : 0 < e) (hlen : e ≤ s.lLen.toNat) :
    stripPads s.input (6 - n) e =
      if s.ibufByte (e - 1) = padCode then stripPads s.input (6 - (n + 1)) (e - 1) else e := by
  obtain ⟨e, rfl⟩ := Nat.exists_eq_succ_of_ne_zero he.ne'
  rw [show 6 - n = 6 - (n + 1) + 1 by omega, stripPads, s.getElem?_input hlen]
  simp

/-- The stripping ends at six pad symbols or at the empty range. -/
theorem stripPads_end (t : List Byte) {n e : Nat} (h : ¬ (n < 6 ∧ 0 < e)) : stripPads t (6 - n) e = e := by
  obtain hn | rfl : 6 - n = 0 ∨ e = 0 := by omega
  · rw [hn, stripPads]
  · exact Nat.le_zero.mp (stripPads_le t (6 - n) 0)

/-- After accept the input of the command is what R150's Loaded says. -/
theorem input_accept {s : State} {t : List Byte} (h : Loaded s t) (w : Word) : (s.accept w).input = t := by
  obtain ⟨hlen, hbytes⟩ := h
  rw [← hlen] at hbytes
  exact hbytes

/-! ### What the engine needs, the steps that are left and the result to come -/

/-- The part of the invariant that the engine's steps rest on: the configuration, the pool, NSTRIP and the phase. Unlike
Inv it asks nothing of the buffers' lists or of STATUS. -/
def EngineOk (s : State) : Prop := s.cfg.wf = true ∧ s.pool.Ok ∧ s.nstrip.toNat ≤ 6 ∧ PhaseOk s

/-- The most engine steps to FINISH, by phase (70_reset_and_hazards.md R145, R146). -/
def State.stepsLeft (s : State) : Nat :=
  match s.phase with
  | .idle => 0
  | .check =>
    match decodeCmd s.lCmd with
    | .illegal _ => 1
    | .command i => stepBound i s.lLen.toNat
  | .dStrip => (6 - s.nstrip.toNat) + s.aend.toNat + 3
  | .dWalk => (s.aend.toNat - s.ipos.toNat) + 2
  | .dResid => 1
  | .eWalk =>
    2 * (s.lLen.toNat - s.ipos.toNat) + (8 * s.lLen.toNat / 5 - s.opos.toNat)
      + (s.etotal.toNat - quintets s.lLen.toNat) + 3
  | .eEmit =>
    2 * (s.lLen.toNat - s.ipos.toNat) + (8 * s.lLen.toNat / 5 - s.opos.toNat)
      + (s.etotal.toNat - quintets s.lLen.toNat) + 4
  | .eFlush => (s.etotal.toNat - quintets s.lLen.toNat) + 2
  | .ePad => (s.etotal.toNat - s.opos.toNat) + 1

/-- The result the command will record, by phase; once IDLE, the one it has recorded. -/
def State.verdict (s : State) : Result :=
  match s.phase with
  | .idle => s.result
  | .check => firstCause s.cfg.ibufDepth s.lCmd s.input
  | .dStrip => walkVerdict .empty (s.input.take (stripPads s.input (6 - s.nstrip.toNat) s.aend.toNat))
  | .dWalk => walkVerdict s.pool ((s.input.take s.aend.toNat).drop s.ipos.toNat)
  | .dResid => s.pool.verdict
  | .eWalk => .ok
  | .eEmit => .ok
  | .eFlush => .ok
  | .ePad => .ok

/-- What one engine step from `s` to `t` achieves. -/
def Advances (s t : State) : Prop := EngineOk t ∧ t.stepsLeft < s.stepsLeft ∧ t.verdict = s.verdict

theorem stepsLeft_pos {s : State} (h : s.phase ≠ .idle) : 0 < s.stepsLeft := by
  cases hphase : s.phase with
  | idle => exact absurd hphase h
  | check =>
    cases hcmd : decodeCmd s.lCmd with
    | illegal why => simp [State.stepsLeft, hphase, hcmd]
    | command i => cases i <;> simp [State.stepsLeft, hphase, hcmd, stepBound, encodeStepBound, decodeStepBound]
  | _ => simp [State.stepsLeft, hphase]

/-- A FINISH with the result the command is bound for is the last step. -/
theorem EngineOk.advances_finish {s t : State} (hs : EngineOk s) (hbusy : s.phase ≠ .idle)
    (hkeep : t.cfg = s.cfg ∧ t.pool = s.pool ∧ t.nstrip = s.nstrip) (hidle : t.phase = .idle)
    (hresult : t.result = s.verdict) : Advances s t := by
  obtain ⟨hcfg, hpool, hnstrip, _⟩ := hs
  obtain ⟨ecfg, epool, enstrip⟩ := hkeep
  refine ⟨⟨ecfg ▸ hcfg, epool ▸ hpool, enstrip ▸ hnstrip, by simp [PhaseOk, hidle]⟩, ?_, ?_⟩
  · simpa [State.stepsLeft, hidle] using stepsLeft_pos hbusy
  · simpa [State.verdict, hidle] using hresult

/-- Buffer indices do not wrap (10_state.md R31). -/
theorem toNat_add_one {x : Word} {d : Nat} (hx : x.toNat < d) (hd : d ≤ 0x10000000) : (x + 1).toNat = x.toNat + 1 := by
  bv_omega

/-- The data symbols are a part of the encoding. -/
theorem quintets_le_encodedLength (pad : Bool) (len : Nat) : quintets len ≤ encodedLength pad len := by
  cases pad with
  | true =>
    simp only [encodedLength, quintets, ceilDiv, if_true]
    omega
  | false => exact le_rfl

/-! ### DECODE's steps -/

theorem engineStep_dStrip {s : State} (h : s.phase = .dStrip) : engineStep s = stepDStrip s := by
  simp [engineStep, engineStepOf, h]

theorem Pool.eq_empty {p : Pool} (hp : p.Ok) (h : p.cnt.toNat = 0) : p = .empty := by
  obtain ⟨bits, cnt⟩ := p
  obtain ⟨_, hbits⟩ := hp
  rw [Pool.empty, Pool.mk.injEq]
  rw [h] at hbits
  exact ⟨BitVec.eq_of_toNat_eq (Nat.lt_one_iff.mp hbits), BitVec.eq_of_toNat_eq h⟩

/-- R88 in D_WALK before the end of the active range, from the engine's own part of the invariant. -/
theorem Decoding.walk_bounds {s : State} (hdec : Decoding s) (hcfg : s.cfg.wf = true) (hend : s.ipos ≠ s.aend) :
    s.ipos.toNat < s.aend.toNat ∧ s.aend.toNat ≤ s.lLen.toNat ∧ s.ipos.toNat < s.cfg.ibufDepth
      ∧ s.pool.cnt.toNat + 5 ≤ 12 ∧ s.opos.toNat < s.cfg.obufDepth := by
  obtain ⟨_, _, hlen, hrange, hle, hcount, hcnt⟩ := hdec
  have hne : s.ipos.toNat ≠ s.aend.toNat := fun h => hend (BitVec.eq_of_toNat_eq h)
  have hread : s.ipos.toNat < s.cfg.ibufDepth := by omega
  exact ⟨by omega, by omega, hread, by omega, Config.lt_obufDepth_of_decoded hcfg hread (by omega)⟩

theorem Pool.afterSymbol_ok {p : Pool} (hp : p.Ok) (hfits : p.cnt.toNat + 5 ≤ 12) (v : BitVec 5) :
    (p.afterSymbol v).Ok := by
  rw [Pool.afterSymbol]
  split
  · exact Pool.pop_ok (Pool.push_ok v hp hfits)
  · exact Pool.push_ok v hp hfits

/-- D_WALK's effect of an alphabet character, the pool's full byte and OPOS by one test (R101). -/
theorem acceptSymbol_eq_afterSymbol {s : State} (v : BitVec 5) (hcfg : s.cfg.wf = true)
    (hfits : s.pool.cnt.toNat + 5 ≤ 12) (hroom : s.opos.toNat < s.cfg.obufDepth) :
    ∃ (m : Memory) (o : Word),
      acceptSymbol v s = .next { s with pool := s.pool.afterSymbol v, ipos := s.ipos + 1, obuf := m, opos := o }
        ∧ 8 * o.toNat + (s.pool.afterSymbol v).cnt.toNat = 8 * s.opos.toNat + s.pool.cnt.toNat + 5
        ∧ (s.pool.afterSymbol v).cnt.toNat ≤ 7 := by
  have hcnt := Pool.push_cnt v hfits
  rw [acceptSymbol_eq hfits hroom, Pool.afterSymbol]
  split
  · have hpop := Pool.pop_cnt (k := 8) (s.pool.push v)
    have hopos := toNat_add_one hroom (Config.depths_le hcfg).2
    exact ⟨_, _, rfl, by omega, by omega⟩
  · exact ⟨_, _, rfl, by omega, by omega⟩

/-- From D_STRIP to D_WALK, once the stripping has ended. -/
theorem dStrip_advances_walk {s : State} (hs : EngineOk s) (hphase : s.phase = .dStrip)
    (hend : stripPads s.input (6 - s.nstrip.toNat) s.aend.toNat = s.aend.toNat) :
    Advances s { s with phase := .dWalk } := by
  obtain ⟨hcfg, hpool, hnstrip, hph⟩ := hs
  rw [PhaseOk, hphase] at hph
  obtain ⟨hdec, _, _, hipos⟩ := hph
  refine ⟨⟨hcfg, hpool, hnstrip, hdec⟩, ?_, ?_⟩
  · simp only [State.stepsLeft, hphase]
    omega
  · obtain ⟨_, _, _, _, _, hcount, _⟩ := hdec
    have hempty : s.pool = .empty := Pool.eq_empty hpool (by simp [hipos] at hcount; omega)
    simp only [State.verdict, hphase, hend, hempty, hipos]
    rfl

/-- D_STRIP (R100): a pad symbol is one round of the stripping, any other character its end. -/
theorem dStrip_advances {s : State} (hs : EngineOk s) (hphase : s.phase = .dStrip) :
    ∃ t, engineStep s = .next t ∧ Advances s t := by
  have ⟨hcfg, hpool, hnstrip, hph⟩ := hs
  rw [PhaseOk, hphase] at hph
  obtain ⟨⟨pad, hcmd, hlen, hrange, hle, hcount, hcnt⟩, hmod, hpad, hipos⟩ := hph
  rw [engineStep_dStrip hphase, stepDStrip]
  by_cases hmore : s.nstrip.toNat < 6 ∧ 0 < s.aend.toNat
  · have hread : s.aend.toNat - 1 < s.cfg.ibufDepth := by omega
    have hround := s.stripPads_round hmore.1 hmore.2 (by omega)
    rw [if_pos hmore, engineRead_eq_some.mpr ⟨hread, rfl⟩]
    dsimp only
    by_cases hc : s.ibufByte (s.aend.toNat - 1) = padCode
    · have haend : (s.aend - 1).toNat = s.aend.toNat - 1 := by bv_omega
      have hstrip : (s.nstrip + 1).toNat = s.nstrip.toNat + 1 := by bv_omega
      rw [if_pos hc] at hround ⊢
      have hzero : s.ipos.toNat = 0 := by simp [hipos]
      refine ⟨_, rfl, ⟨hcfg, hpool, ?_, ?_⟩, ?_, ?_⟩
      · dsimp only
        omega
      · simp only [PhaseOk, hphase]
        exact ⟨⟨pad, hcmd, hlen, by dsimp only; omega, by dsimp only; omega, hcount, hcnt⟩, hmod, hpad, hipos⟩
      · simp only [State.stepsLeft, hphase]
        omega
      · simp only [State.verdict, hphase, haend, hstrip, hround]
        rfl
    · rw [if_neg hc] at hround ⊢
      exact ⟨_, rfl, dStrip_advances_walk hs hphase hround⟩
  · rw [if_neg hmore]
    exact ⟨_, rfl, dStrip_advances_walk hs hphase (stripPads_end _ hmore)⟩

/-- D_WALK (R101): the walk of DecodeFn, one character on. -/
theorem dWalk_advances {s : State} (hs : EngineOk s) (hphase : s.phase = .dWalk) :
    ∃ t, engineStep s = .next t ∧ Advances s t := by
  have ⟨hcfg, hpool, hnstrip, hph⟩ := hs
  rw [PhaseOk, hphase] at hph
  rw [engineStep_dWalk hphase, stepDWalk]
  by_cases hend : s.ipos = s.aend
  · rw [if_pos hend]
    refine ⟨_, rfl, ⟨hcfg, hpool, hnstrip, hph, hend⟩, ?_, ?_⟩
    · simp [State.stepsLeft, hphase]
    · have hdone : (s.input.take s.aend.toNat).drop s.ipos.toNat = [] := by simp [hend]
      simp only [State.verdict, hphase, hdone, walkVerdict_nil]
  · obtain ⟨hlt, haend, hread, hfits, hroom⟩ := Decoding.walk_bounds hph hcfg hend
    have hverdict : s.verdict = walkVerdict s.pool
        (s.ibufByte s.ipos.toNat :: (s.input.take s.aend.toNat).drop (s.ipos.toNat + 1)) := by
      simp only [State.verdict, hphase, s.drop_take_input hlt haend]
    rw [if_neg hend, engineRead_eq_some.mpr ⟨hread, rfl⟩]
    dsimp only
    cases hc : rlut (s.ibufByte s.ipos.toNat) with
    | none =>
      refine ⟨_, rfl, hs.advances_finish (by simp [hphase]) ⟨rfl, rfl, rfl⟩ rfl ?_⟩
      rw [hverdict, walkVerdict_cons_none hc, State.finish_result]
    | some v =>
      obtain ⟨pad, hcmd, hlen, hrange, hle, hcount, hcnt⟩ := hph
      obtain ⟨m, o, hstep, hbits, hcnt'⟩ := acceptSymbol_eq_afterSymbol v hcfg hfits hroom
      have hipos := toNat_add_one hread (Config.depths_le hcfg).1
      refine ⟨_, hstep, ⟨hcfg, Pool.afterSymbol_ok hpool hfits v, hnstrip, ?_⟩, ?_, ?_⟩
      · simp only [PhaseOk, hphase]
        exact ⟨pad, hcmd, hlen, hrange, by dsimp only; omega, by dsimp only; omega, hcnt'⟩
      · simp only [State.stepsLeft, hphase]
        omega
      · rw [hverdict, walkVerdict_cons_some hc]
        simp only [State.verdict, hphase, hipos]
        rfl

/-- D_RESID (R102): the residual bits give the verdict. -/
theorem dResid_advances {s : State} (hs : EngineOk s) (hphase : s.phase = .dResid) :
    ∃ t, engineStep s = .next t ∧ Advances s t := by
  rw [engineStep_dResid hphase, stepDResid]
  have hverdict : s.verdict = s.pool.verdict := by simp only [State.verdict, hphase]
  have hbusy : s.phase ≠ .idle := by simp [hphase]
  cases hzero : s.pool.residueZero with
  | true =>
    rw [Pool.verdict, hzero] at hverdict
    exact ⟨_, rfl, hs.advances_finish hbusy ⟨rfl, rfl, rfl⟩ rfl hverdict.symm⟩
  | false =>
    rw [Pool.verdict, hzero] at hverdict
    exact ⟨_, rfl, hs.advances_finish hbusy ⟨rfl, rfl, rfl⟩ rfl hverdict.symm⟩

/-! ### ENCODE's steps: each verdict is OK (42_encode.md R111) -/

/-- E_WALK (R112). -/
theorem eWalk_advances {s : State} (hs : EngineOk s) (hphase : s.phase = .eWalk) :
    ∃ t, engineStep s = .next t ∧ Advances s t := by
  obtain ⟨hcfg, hpool, hnstrip, hph⟩ := hs
  rw [PhaseOk, hphase] at hph
  obtain ⟨henc, hcnt⟩ := hph
  rw [engineStep_eWalk hphase, stepEWalk]
  by_cases hend : s.ipos = s.lLen
  · rw [if_pos hend]
    refine ⟨_, rfl, ⟨hcfg, hpool, hnstrip, henc, hcnt, hend⟩, ?_, ?_⟩
    · simp only [State.stepsLeft, hphase]
      omega
    · simp only [State.verdict, hphase]
  · obtain ⟨pad, hcmd, hlen, htotal, hle, hcount⟩ := henc
    have hne : s.ipos.toNat ≠ s.lLen.toNat := fun h => hend (BitVec.eq_of_toNat_eq h)
    have hread : s.ipos.toNat < s.cfg.ibufDepth := by omega
    have hfits : s.pool.cnt.toNat + 8 ≤ 12 := by omega
    have hipos := toNat_add_one hread (Config.depths_le hcfg).1
    have hpush := Pool.push_cnt (s.ibufByte s.ipos.toNat) hfits
    rw [if_neg hend, engineRead_eq_some.mpr ⟨hread, rfl⟩]
    refine ⟨_, if_pos (Pool.fits_iff.mpr hfits), ⟨hcfg, Pool.push_ok _ hpool hfits, hnstrip, ?_⟩, ?_, ?_⟩
    · exact ⟨pad, hcmd, hlen, htotal, by dsimp only; omega, by dsimp only; omega⟩
    · simp only [State.stepsLeft, hphase]
      omega
    · simp only [State.verdict, hphase]

/-- E_EMIT (R113). -/
theorem eEmit_advances {s : State} (hs : EngineOk s) (hphase : s.phase = .eEmit) :
    ∃ t, engineStep s = .next t ∧ Advances s t := by
  obtain ⟨hcfg, hpool, hnstrip, hph⟩ := hs
  rw [PhaseOk, hphase] at hph
  rw [engineStep_eEmit hphase, stepEEmit]
  by_cases hquintet : 5 ≤ s.pool.cnt.toNat
  · have hroom := hph.opos_lt_obufDepth hcfg (by omega)
    obtain ⟨pad, hcmd, hlen, htotal, hle, hcount⟩ := hph
    have hopos := toNat_add_one hroom (Config.depths_le hcfg).2
    have hpop := Pool.pop_cnt (k := 5) s.pool
    rw [if_pos (Pool.holds_iff.mpr hquintet)]
    refine ⟨_, emit_eq_next.mpr ⟨hroom, rfl⟩, ⟨hcfg, Pool.pop_ok hpool, hnstrip, ?_⟩, ?_, ?_⟩
    · simp only [PhaseOk, hphase]
      exact ⟨pad, hcmd, hlen, htotal, hle, by dsimp only; omega⟩
    · simp only [State.stepsLeft, hphase]
      omega
    · simp only [State.verdict, hphase]
  · rw [if_neg (mt Pool.holds_iff.mp hquintet)]
    refine ⟨_, rfl, ⟨hcfg, hpool, hnstrip, hph, by dsimp only; omega⟩, ?_, ?_⟩
    · simp only [State.stepsLeft, hphase]
      omega
    · simp only [State.verdict, hphase]

/-- E_FLUSH (R114): after it every data symbol is written. -/
theorem eFlush_advances {s : State} (hs : EngineOk s) (hphase : s.phase = .eFlush) :
    ∃ t, engineStep s = .next t ∧ Advances s t := by
  obtain ⟨hcfg, hpool, hnstrip, hph⟩ := hs
  rw [PhaseOk, hphase] at hph
  obtain ⟨henc, hcnt, hend⟩ := hph
  rw [engineStep_eFlush hphase, stepEFlush]
  have hroom := henc.opos_lt_obufDepth hcfg
  obtain ⟨pad, hcmd, hlen, htotal, _, hcount⟩ := henc
  have hdata : quintets s.lLen.toNat ≤ s.etotal.toNat := htotal ▸ quintets_le_encodedLength pad _
  have hquintets : quintets s.lLen.toNat = (8 * s.lLen.toNat + 4) / 5 := rfl
  rw [hend] at hcount
  by_cases hbits : 1 ≤ s.pool.cnt.toNat
  · have hopos := toNat_add_one (hroom hbits) (Config.depths_le hcfg).2
    rw [if_pos (Pool.holds_iff.mpr hbits), if_neg (mt Pool.holds_iff.mp (by omega))]
    refine ⟨_, emit_eq_next.mpr ⟨hroom hbits, rfl⟩, ⟨hcfg, Pool.empty_ok, hnstrip, ?_⟩, ?_, ?_⟩
    · exact ⟨pad, hcmd, hlen, htotal, rfl, by dsimp only; omega, by dsimp only; omega⟩
    · simp only [State.stepsLeft, hphase]
      omega
    · simp only [State.verdict, hphase]
  · have hempty : s.pool = .empty := Pool.eq_empty hpool (by omega)
    rw [if_neg (mt Pool.holds_iff.mp hbits)]
    refine ⟨_, rfl, ⟨hcfg, hpool, hnstrip, ?_⟩, ?_, ?_⟩
    · exact ⟨pad, hcmd, hlen, htotal, hempty, by dsimp only; omega, by dsimp only; omega⟩
    · simp only [State.stepsLeft, hphase]
      omega
    · simp only [State.verdict, hphase]

/-- E_PAD (R115): one pad symbol, or FINISH(OK). -/
theorem ePad_advances {s : State} (hs : EngineOk s) (hphase : s.phase = .ePad) :
    ∃ t, engineStep s = .next t ∧ Advances s t := by
  have hverdict : s.verdict = .ok := by simp only [State.verdict, hphase]
  have ⟨hcfg, hpool, hnstrip, hph⟩ := hs
  rw [PhaseOk, hphase] at hph
  obtain ⟨pad, hcmd, hlen, htotal, hempty, hdata, hle⟩ := hph
  rw [engineStep_ePad hphase, stepEPad]
  by_cases hmore : s.opos.toNat < s.etotal.toNat
  · have hfit := (encodedLength_le pad s.lLen.toNat).trans (Config.encoded_le_obufDepth hcfg hlen)
    have hroom : s.opos.toNat < s.cfg.obufDepth := by omega
    have hopos := toNat_add_one hroom (Config.depths_le hcfg).2
    rw [if_pos hmore]
    refine ⟨_, emit_eq_next.mpr ⟨hroom, rfl⟩, ⟨hcfg, hpool, hnstrip, ?_⟩, ?_, ?_⟩
    · simp only [PhaseOk, hphase]
      exact ⟨pad, hcmd, hlen, htotal, hempty, by omega, by omega⟩
    · simp only [State.stepsLeft, hphase]
      omega
    · simp only [State.verdict, hphase]
  · rw [if_neg hmore]
    exact ⟨_, rfl, hs.advances_finish (by simp [hphase]) ⟨rfl, rfl, rfl⟩ rfl hverdict.symm⟩

/-! ### CHECK -/

theorem lPad_of_decodeCmd {s : State} {pad : Bool} (h : decodeCmd s.lCmd = .command (.decode pad)) :
    s.lPad = pad := by
  rw [State.lPad, eq_encode_of_decodeCmd h]
  cases pad <;> decide

/-- CHECK's entry to the encode: ETOTAL fits its register. -/
theorem check_advances_encode {s : State} {pad : Bool} (hs : EngineOk s) (hphase : s.phase = .check)
    (hcmd : decodeCmd s.lCmd = .command (.encode pad)) (hlen : s.lLen.toNat ≤ s.cfg.ibufDepth)
    (hverdict : s.verdict = .ok) :
    Advances s { s with etotal := BitVec.ofNat 32 (encodedLength pad s.lLen.toNat), phase := .eWalk } := by
  obtain ⟨hcfg, hpool, hnstrip, hph⟩ := hs
  rw [PhaseOk, hphase] at hph
  obtain ⟨hempty, hipos, hopos, _, _, _⟩ := hph
  have hle := encodedLength_le pad s.lLen.toNat
  have hfit := Config.encoded_le_obufDepth hcfg hlen
  have hdepth := (Config.depths_le hcfg).2
  have htotal : (BitVec.ofNat 32 (encodedLength pad s.lLen.toNat)).toNat = encodedLength pad s.lLen.toNat := by
    rw [BitVec.toNat_ofNat]
    omega
  refine ⟨⟨hcfg, hpool, hnstrip, ?_⟩, ?_, ?_⟩
  · simp [PhaseOk, Encoding, hcmd, hlen, htotal, hempty, hipos, hopos]
  · simp only [State.stepsLeft, hphase, hcmd, stepBound, encodeStepBound, htotal, hipos, hopos]
    simp only [quintets]
    omega
  · exact hverdict.symm

/-- CHECK's entry to the decode, by P: D_STRIP has all of the stripping before it, D_WALK the whole input. -/
theorem check_advances_decode {s : State} {pad : Bool} (hs : EngineOk s) (hphase : s.phase = .check)
    (hcmd : decodeCmd s.lCmd = .command (.decode pad)) (hlen : s.lLen.toNat ≤ s.cfg.ibufDepth)
    (hmod : ¬ (pad = true ∧ s.lLen.toNat % 8 ≠ 0))
    (hverdict : s.verdict = walkVerdict .empty (s.input.take (activeLength s.input pad))) :
    Advances s { s with aend := s.lLen, phase := if pad then .dStrip else .dWalk } := by
  obtain ⟨hcfg, hpool, hnstrip, hph⟩ := hs
  rw [PhaseOk, hphase] at hph
  obtain ⟨hempty, hipos, hopos, _, hstrip, _⟩ := hph
  have hdec : Decoding { s with aend := s.lLen, phase := if pad then .dStrip else .dWalk } :=
    ⟨pad, hcmd, hlen, by simp [hstrip], by simp [hipos], by simp [hipos, hopos, hempty], by simp [hempty]⟩
  cases pad with
  | true =>
    refine ⟨⟨hcfg, hpool, hnstrip, hdec, by simpa using hmod, lPad_of_decodeCmd hcmd, hipos⟩, ?_, ?_⟩
    · simp only [State.stepsLeft, hphase, hcmd, stepBound, decodeStepBound, if_true]
      omega
    · rw [hverdict, activeLength, s.length_input]
      simp only [State.verdict, if_true, hstrip]
      rfl
  | false =>
    refine ⟨⟨hcfg, hpool, hnstrip, hdec⟩, ?_, ?_⟩
    · simp only [State.stepsLeft, hphase, hcmd, stepBound, decodeStepBound, Bool.false_eq_true, if_false]
      omega
    · rw [hverdict, activeLength, s.length_input]
      simp only [State.verdict, Bool.false_eq_true, if_false, hempty, hipos]
      rfl

/-- CHECK (R124): the contract errors and the length come first in R126's order, and the rest is the command's own. -/
theorem check_advances {s : State} (hs : EngineOk s) (hphase : s.phase = .check) :
    ∃ t, engineStep s = .next t ∧ Advances s t := by
  refine ⟨_, checkJudgesTheCommand s hphase, ?_⟩
  have hbusy : s.phase ≠ .idle := by simp [hphase]
  have hverdict : s.verdict = firstCause s.cfg.ibufDepth s.lCmd s.input := by simp only [State.verdict, hphase]
  cases hcmd : decodeCmd s.lCmd with
  | illegal why =>
    exact hs.advances_finish hbusy ⟨rfl, rfl, rfl⟩ rfl (by simp [hverdict, firstCause, hcmd])
  | command i =>
    dsimp only
    split
    · next hlong =>
      exact hs.advances_finish hbusy ⟨rfl, rfl, rfl⟩ rfl
        (by simp [hverdict, firstCause, hcmd, s.length_input, hlong])
    · next hfits =>
      have hlen : s.lLen.toNat ≤ s.cfg.ibufDepth := by omega
      cases i with
      | encode pad =>
        exact check_advances_encode hs hphase hcmd hlen (by simp [hverdict, firstCause, hcmd, s.length_input, hfits])
      | decode pad =>
        rw [firstCause_decode hcmd (s.length_input ▸ hlen), s.length_input] at hverdict
        dsimp only
        split
        · next hmod =>
          rw [if_pos hmod] at hverdict
          exact hs.advances_finish hbusy ⟨rfl, rfl, rfl⟩ rfl hverdict.symm
        · next hmod =>
          rw [if_neg hmod] at hverdict
          exact check_advances_decode hs hphase hcmd hlen hmod hverdict

/-! ### The whole command -/

/-- Under EngineOk no engine step of a running command faults, and each brings it closer to its result. -/
theorem engineStep_advances {s : State} (hs : EngineOk s) (hbusy : s.phase ≠ .idle) :
    ∃ t, engineStep s = .next t ∧ Advances s t := by
  cases hphase : s.phase with
  | idle => exact absurd hphase hbusy
  | check => exact check_advances hs hphase
  | dStrip => exact dStrip_advances hs hphase
  | dWalk => exact dWalk_advances hs hphase
  | dResid => exact dResid_advances hs hphase
  | eWalk => exact eWalk_advances hs hphase
  | eEmit => exact eEmit_advances hs hphase
  | eFlush => exact eFlush_advances hs hphase
  | ePad => exact ePad_advances hs hphase

/-- With as many steps as are left, a command reaches FINISH and records its verdict. -/
theorem engineRun_reaches_verdict {n : Nat} {s : State} (hs : EngineOk s) (hn : s.stepsLeft ≤ n) :
    ∃ u, engineRun (decodeCmd s.lCmd) n s = .next u ∧ u.phase = .idle ∧ u.result = s.verdict := by
  induction n generalizing s with
  | zero =>
    have hidle : s.phase = .idle := by
      by_contra hbusy
      exact absurd (stepsLeft_pos hbusy) (by omega)
    exact ⟨s, rfl, hidle, by simp only [State.verdict, hidle]⟩
  | succ n ih =>
    by_cases hidle : s.phase = .idle
    · exact ⟨s, engineRun_idle hidle, hidle, by simp only [State.verdict, hidle]⟩
    · obtain ⟨t, hstep, ht, hless, hverdict⟩ := engineStep_advances hs hidle
      have hstep' : engineStepOf (decodeCmd s.lCmd) s = .next t := hstep
      obtain ⟨_, hword, _⟩ := engineStepOf_keeps hstep'
      obtain ⟨u, hrun, hu, hresult⟩ := ih ht (by omega)
      rw [hword] at hrun
      refine ⟨u, ?_, hu, hresult.trans hverdict⟩
      rw [engineRun_busy hidle, hstep', andThen_next, hrun]

/-- A command just accepted has the steps that runCommand gives it, legal word or not. -/
theorem runCommand_eq_engineRun {s : State} (hphase : s.phase = .check) :
    runCommand s = engineRun (decodeCmd s.lCmd) s.stepsLeft s := by
  unfold runCommand
  cases hcmd : decodeCmd s.lCmd with
  | command i =>
    simp only [exec_eq_engineRun, State.stepsLeft, hphase, hcmd]
  | illegal why =>
    simp only [State.stepsLeft, hphase, hcmd]
    rw [engineRun_busy (by simp [hphase]), engineStep, hcmd]
    cases engineStepOf (.illegal why) s <;> rfl

/-- Accept leaves the engine what it needs (10_state.md R22). -/
theorem engineOk_accept {s : State} (hcfg : s.cfg.wf = true) (w : Word) : EngineOk (s.accept w) :=
  ⟨hcfg, Pool.empty_ok, Nat.zero_le _, rfl, rfl, rfl, rfl, rfl, rfl⟩

/-- Settles O33: the accepted command is bound for R126's first cause, and its run records it. -/
theorem firstCauseInR126OrderWins : Obligations.FirstCauseInR126OrderWins := by
  intro s w t _ hcfg hloaded
  obtain ⟨u, hrun, hidle, hresult⟩ := engineRun_reaches_verdict (engineOk_accept hcfg w) le_rfl
  refine ⟨u, (runCommand_eq_engineRun rfl).trans hrun, hidle, ?_⟩
  calc u.result = firstCause s.cfg.ibufDepth w (s.accept w).input := hresult
    _ = firstCause s.cfg.ibufDepth w t := by rw [input_accept hloaded]

end Sys2Proof.Machine
end


section
/-! The pool as a stream of bits (40_bitpool.md R84, R85, R88), and that a stream gives its values back: O9, O10. -/
namespace Sys2Proof.Machine

/-! ### Streams -/

@[simp] theorem length_bitsMsb (n x : Nat) : (bitsMsb n x).length = n := by
  induction n with
  | zero => rfl
  | succ n ih => simp [bitsMsb, ih]

/-- The low `n` bits of a number are its stream of length `n`. -/
theorem testBit_eq_of_bitsMsb_eq {n x y : Nat} (h : bitsMsb n x = bitsMsb n y) :
    ∀ i < n, x.testBit i = y.testBit i := by
  induction n with
  | zero => simp
  | succ n ih =>
    obtain ⟨hhead, htail⟩ := List.cons.inj h
    intro i hi
    obtain hlt | rfl := Nat.lt_succ_iff_lt_or_eq.mp hi
    · exact ih htail i hlt
    · exact hhead

theorem bitsMsb_injective {n : Nat} {v w : BitVec n} (h : bitsMsb n v.toNat = bitsMsb n w.toNat) : v = w :=
  BitVec.eq_of_getLsbD_eq (testBit_eq_of_bitsMsb_eq h)

@[simp] theorem byteStream_nil : byteStream [] = [] := rfl
@[simp] theorem byteStream_cons (v : Byte) (b : List Byte) : byteStream (v :: b) = bitsMsb 8 v.toNat ++ byteStream b :=
  rfl
@[simp] theorem byteStream_append (a b : List Byte) : byteStream (a ++ b) = byteStream a ++ byteStream b :=
  List.flatMap_append
@[simp] theorem symbolStream_nil : symbolStream [] = [] := rfl
@[simp] theorem symbolStream_cons (v : BitVec 5) (q : List (BitVec 5)) :
    symbolStream (v :: q) = bitsMsb 5 v.toNat ++ symbolStream q := rfl
@[simp] theorem symbolStream_append (a b : List (BitVec 5)) :
    symbolStream (a ++ b) = symbolStream a ++ symbolStream b := List.flatMap_append

@[simp] theorem length_byteStream (b : List Byte) : (byteStream b).length = 8 * b.length := by
  induction b with
  | nil => rfl
  | cons v b ih =>
    simp only [byteStream_cons, List.length_append, length_bitsMsb, ih, List.length_cons]
    omega

@[simp] theorem length_symbolStream (q : List (BitVec 5)) : (symbolStream q).length = 5 * q.length := by
  induction q with
  | nil => rfl
  | cons v q ih =>
    simp only [symbolStream_cons, List.length_append, length_bitsMsb, ih, List.length_cons]
    omega

theorem byteStream_injective {a b : List Byte} (h : byteStream a = byteStream b) : a = b := by
  induction a generalizing b with
  | nil =>
    have hlen := congrArg List.length h
    simp at hlen
    exact hlen.symm
  | cons v a ih =>
    cases b with
    | nil => simp [bitsMsb] at h
    | cons w b =>
      obtain ⟨hhead, htail⟩ := List.append_inj h (by simp)
      rw [bitsMsb_injective hhead, ih htail]

/-! ### The pool's stream (R88) -/

@[simp] theorem Pool.stream_empty : Pool.empty.stream = [] := rfl

@[simp] theorem Pool.length_stream (p : Pool) : p.stream.length = p.cnt.toNat := length_bitsMsb _ _

/-- PUSH appends its bits. -/
theorem Pool.stream_push {n : Nat} {p : Pool} (v : BitVec n) (hp : p.Ok) (hfits : p.cnt.toNat + n ≤ 12) :
    (p.push v).stream = p.stream ++ bitsMsb n v.toNat := by
  rw [Pool.stream, Pool.push_cnt v hfits, Pool.push_bits v hp hfits]
  exact bitsMsb_append _ _ _ _ v.isLt

/-- POP takes the oldest bits. -/
theorem Pool.stream_pop {k : Nat} {p : Pool} (hp : p.Ok) (hholds : k ≤ p.cnt.toNat) :
    p.stream = bitsMsb k (p.top k).toNat ++ (p.pop k).stream := by
  have hlow : (p.pop k).bits.toNat < 2 ^ (p.cnt.toNat - k) := Pool.pop_cnt (k := k) p ▸ (Pool.pop_ok hp).2
  rw [Pool.stream, Pool.stream, Pool.pop_cnt, ← bitsMsb_append _ _ _ _ hlow, ← Pool.bits_eq_top_mul_add_pop hp hholds,
    Nat.add_sub_cancel' hholds]

/-- FLUSH5 returns what is left above zero bits. -/
theorem Pool.stream_flushed {p : Pool} (hp : p.Ok) (hcnt : p.cnt.toNat ≤ 5) :
    bitsMsb 5 p.flushed.toNat = p.stream ++ List.replicate (5 - p.cnt.toNat) false := by
  have hcut := bitsMsb_append p.cnt.toNat (5 - p.cnt.toNat) p.bits.toNat 0 (by positivity)
  rwa [Nat.add_sub_cancel' hcnt, Nat.add_zero, ← Pool.flushed_toNat hp hcnt, bitsMsb_zero] at hcut

/-- A pool of zero bits holds nothing but zeros, and conversely. -/
theorem Pool.residueZero_iff_stream {p : Pool} (hp : p.Ok) :
    p.residueZero = true ↔ p.stream = List.replicate p.cnt.toNat false := by
  rw [Pool.residueZero_iff hp, ← bitsMsb_zero]
  constructor
  · intro hzero
    simp [Pool.stream, hzero]
  · intro hstream
    refine BitVec.eq_of_toNat_eq (Nat.eq_of_testBit_eq fun i => ?_)
    obtain hlow | hhigh := Nat.lt_or_ge i p.cnt.toNat
    · simpa using testBit_eq_of_bitsMsb_eq hstream i hlow
    · rw [Nat.testBit_lt_two_pow (hp.2.trans_le (Nat.pow_le_pow_right (by decide) hhigh))]
      simp

/-! ### The statements -/

/-- Settles O9: R81 bounds the residue by CNT, and the flushed value by five bits. -/
theorem residueTestAndFlush : Obligations.ResidueTestAndFlush := by
  intro p hp
  exact ⟨Pool.residueZero_iff hp, fun _ hcnt => Pool.flushed_toNat hp (by omega)⟩

/-- Settles O10, one operation at a time. -/
theorem poolIsABitStream : Obligations.PoolIsABitStream := by
  intro p hp
  exact ⟨fun _ v hfits => Pool.stream_push v hp hfits, fun _ hholds => Pool.stream_pop hp hholds,
    Pool.stream_flushed hp⟩

end Sys2Proof.Machine
end


section
/-! DecodeFn read as bits: the walk moves a stream of symbols into a stream of bytes and loses none of it (41_decode.md
R94 to R99): O38, O40, O42. -/
namespace Sys2Proof.Machine

/-! ### The alphabet -/

/-- A symbol's code is found at the symbol (20_memory.md R54, R55). -/
theorem rlut_rom : ∀ v : BitVec 5, rlut (rom v) = some v := by decide

/-- What is found is the position of the code. -/
theorem rom_of_rlut {c : Byte} {v : BitVec 5} (h : rlut c = some v) : rom v = c := by
  obtain ⟨i, hi, rfl⟩ := Option.map_eq_some_iff.mp h
  obtain ⟨hlt, hcode, _⟩ := List.findIdx?_eq_some_iff_getElem.mp hi
  have hpos : (BitVec.ofNat 5 i).toNat = i := Nat.mod_eq_of_lt hlt
  rw [rom, hpos, List.getD_eq_getElem _ _ hlt]
  exact eq_of_beq hcode

/-- No symbol's code is the pad code (20_memory.md R54). -/
theorem rom_ne_padCode : ∀ v : BitVec 5, rom v ≠ padCode := by decide

/-! ### The walk -/

/-- The bytes a symbol completes: one when CNT reaches 8, else none (41_decode.md R95). -/
def Pool.bytesOf (p : Pool) (v : BitVec 5) : List Byte := if 8 ≤ (p.push v).cnt.toNat then [(p.push v).top 8] else []

/-- The walk over a symbol, by the pool it leaves and the bytes it completes. -/
theorem decodeWalk_cons {c : Byte} {v : BitVec 5} (hc : rlut c = some v) (p : Pool) (out cs : List Byte) :
    decodeWalk p out (c :: cs) = decodeWalk (p.afterSymbol v) (out ++ p.bytesOf v) cs := by
  rw [decodeWalk, hc, Pool.afterSymbol, Pool.bytesOf]
  simp only [Pool.holds_iff]
  split
  · rfl
  · rw [List.append_nil]

/-- R95, R97: fewer than eight bits wait between two symbols. -/
theorem Pool.afterSymbol_cnt {p : Pool} (v : BitVec 5) (hcnt : p.cnt.toNat ≤ 7) : (p.afterSymbol v).cnt.toNat ≤ 7 := by
  have hpush := Pool.push_cnt v (show p.cnt.toNat + 5 ≤ 12 by omega)
  rw [Pool.afterSymbol]
  split
  · rw [Pool.pop_cnt]
    omega
  · omega

/-- A symbol's five bits follow those that wait; the completed byte takes the oldest (R88). -/
theorem Pool.stream_afterSymbol {p : Pool} (v : BitVec 5) (hp : p.Ok) (hcnt : p.cnt.toNat ≤ 7) :
    byteStream (p.bytesOf v) ++ (p.afterSymbol v).stream = p.stream ++ bitsMsb 5 v.toNat := by
  have hfits : p.cnt.toNat + 5 ≤ 12 := by omega
  rw [← Pool.stream_push v hp hfits, Pool.bytesOf, Pool.afterSymbol]
  split
  · next hbyte => simp [Pool.stream_pop (Pool.push_ok v hp hfits) hbyte]
  · rfl

/-- The walk over symbols gives a value, and all their bits are in the bytes and the pool after it. -/
theorem decodeWalk_symbols (q : List (BitVec 5)) {p : Pool} (out : List Byte) (hp : p.Ok) (hcnt : p.cnt.toNat ≤ 7) :
    ∃ p' out', decodeWalk p out (q.map rom) = some (p', out') ∧ p'.Ok ∧ p'.cnt.toNat ≤ 7
      ∧ byteStream out' ++ p'.stream = byteStream out ++ p.stream ++ symbolStream q := by
  induction q generalizing p out with
  | nil => exact ⟨p, out, rfl, hp, hcnt, by simp⟩
  | cons v q ih =>
    obtain ⟨p', out', hwalk, hp', hcnt', hbits⟩ := ih (out ++ p.bytesOf v)
      (Pool.afterSymbol_ok hp (by omega) v) (Pool.afterSymbol_cnt v hcnt)
    refine ⟨p', out', (decodeWalk_cons (rlut_rom v) p out _).trans hwalk, hp', hcnt', ?_⟩
    rw [hbits, byteStream_append, List.append_assoc (byteStream out), Pool.stream_afterSymbol v hp hcnt]
    simp

/-- The walk gives a value only for symbols (R94). -/
theorem symbols_of_decodeWalk {cs : List Byte} {p : Pool} {out : List Byte} {r : Pool × List Byte}
    (h : decodeWalk p out cs = some r) : ∃ q : List (BitVec 5), cs = q.map rom := by
  induction cs generalizing p out with
  | nil => exact ⟨[], rfl⟩
  | cons c cs ih =>
    cases hc : rlut c with
    | none => simp [decodeWalk_cons_none hc] at h
    | some v =>
      rw [decodeWalk_cons hc] at h
      obtain ⟨q, hq⟩ := ih h
      exact ⟨v :: q, by rw [List.map_cons, rom_of_rlut hc, hq]⟩

/-! ### The verdict -/

/-- DecodeFn's last part (R90, R96): the bytes, if the bits that remain are zero. -/
def decodeEnd : Option (Pool × List Byte) → Option (List Byte)
  | none => none
  | some (p, out) => if p.residueZero then some out else none

theorem decodeFn_eq (t : List Byte) (pad : Bool) :
    decodeFn t pad =
      if pad = true ∧ t.length % 8 ≠ 0 then none
      else decodeEnd (decodeWalk .empty [] (t.take (activeLength t pad))) := by
  rw [decodeFn]
  split
  · rfl
  · cases decodeWalk .empty [] (t.take (activeLength t pad)) <;> rfl

/-- R96: the symbols decode to the bytes whose stream is theirs but for fewer than eight zero bits. -/
theorem decodeEnd_symbols (q : List (BitVec 5)) (out : List Byte) :
    decodeEnd (decodeWalk .empty [] (q.map rom)) = some out ↔
      ∃ r < 8, symbolStream q = byteStream out ++ List.replicate r false := by
  obtain ⟨p, out', hwalk, hp, hcnt, hbits⟩ := decodeWalk_symbols q [] Pool.empty_ok (by decide)
  simp only [byteStream_nil, Pool.stream_empty, List.nil_append] at hbits
  rw [hwalk, decodeEnd, ← hbits]
  constructor
  · intro h
    split at h
    · next hzero =>
      cases h
      exact ⟨p.cnt.toNat, by omega, by rw [(Pool.residueZero_iff_stream hp).mp hzero]⟩
    · cases h
  · rintro ⟨r, hr, hstream⟩
    have hlen := congrArg List.length hstream
    simp only [List.length_append, length_byteStream, Pool.length_stream, List.length_replicate] at hlen
    obtain ⟨hbytes, hrest⟩ := List.append_inj hstream (by simp only [length_byteStream]; omega)
    obtain rfl : r = p.cnt.toNat := by omega
    rw [if_pos ((Pool.residueZero_iff_stream hp).mpr hrest), byteStream_injective hbytes]

theorem activeLength_le (t : List Byte) (pad : Bool) : activeLength t pad ≤ t.length := by
  cases pad with
  | true => exact stripPads_le t 6 t.length
  | false => exact le_rfl

/-! ### The statements -/

/-- Settles O40: the walk gives a value for symbols only, and then the streams decide. -/
theorem decodingIsTheBitStreamInBytes : Obligations.DecodingIsTheBitStreamInBytes := by
  intro t out pad
  rw [decodeFn_eq]
  split
  · next hlen => exact ⟨nofun, fun ⟨hok, _⟩ => absurd (hok hlen.1) hlen.2⟩
  · next hlen =>
    have hok : pad = true → t.length % 8 = 0 := fun hpad => by simpa [hpad] using hlen
    constructor
    · intro h
      obtain ⟨q, hq⟩ : ∃ q : List (BitVec 5), t.take (activeLength t pad) = q.map rom := by
        cases hwalk : decodeWalk .empty [] (t.take (activeLength t pad)) with
        | none => simp [hwalk, decodeEnd] at h
        | some r => exact symbols_of_decodeWalk hwalk
      rw [hq] at h
      obtain ⟨r, hr, hstream⟩ := (decodeEnd_symbols q out).mp h
      exact ⟨hok, q, r, hq, hstream, hr⟩
    · rintro ⟨_, q, r, hq, hstream, hr⟩
      rw [hq]
      exact (decodeEnd_symbols q out).mpr ⟨r, hr, hstream⟩

/-- Settles O38, by counting the bits of O40's two streams. -/
theorem decodedLengthLaw : Obligations.DecodedLengthLaw := by
  intro t out pad h
  obtain ⟨_, q, r, hq, hstream, hr⟩ := (decodingIsTheBitStreamInBytes t out pad).mp h
  have hbits := congrArg List.length hstream
  have hactive := congrArg List.length hq
  simp only [length_symbolStream, List.length_append, length_byteStream, List.length_replicate] at hbits
  simp only [List.length_take, List.length_map, min_eq_left (activeLength_le t pad)] at hactive
  omega

/-- Settles O42: with padding, a text that is not empty has at least eight characters, and at most six are stripped. -/
theorem emptyRangeDecodesToNothing : Obligations.EmptyRangeDecodesToNothing := by
  refine ⟨fun t pad hlen => ?_, by decide⟩
  rw [← List.length_eq_zero_iff]
  cases pad with
  | false => rfl
  | true =>
    obtain ⟨_, hle, hsix, _⟩ := padStrippingRemovesTrailingPads t
    have hmod := hlen rfl
    omega

end Sys2Proof.Machine
end


section
/-! EncodeFn read as bits: the walk moves a stream of bytes into a stream of symbols and loses none of it (42_encode.md
R107 to R109), the lengths that follow, and the round trip (R116): O36, O37, O39. -/
namespace Sys2Proof.Machine

/-! ### The inner loop and the walk -/

/-- A round of the inner loop, and its end. -/
theorem drainQuintets_succ (fuel : Nat) (p : Pool) (out : List Byte) :
    drainQuintets (fuel + 1) p out =
      if 5 ≤ p.cnt.toNat then drainQuintets fuel (p.pop 5) (out ++ [rom (p.top 5)]) else (p, out) := by
  simp only [drainQuintets, Pool.holds_iff]

/-- CNT rounds leave fewer than five bits; the symbols written are the oldest bits of the pool. -/
theorem drainQuintets_symbols {fuel : Nat} {p : Pool} (out : List Byte) (hp : p.Ok) (hfuel : p.cnt.toNat ≤ fuel) :
    ∃ (q : List (BitVec 5)) (p' : Pool), drainQuintets fuel p out = (p', out ++ q.map rom) ∧ p'.Ok
      ∧ p'.cnt.toNat ≤ 4 ∧ symbolStream q ++ p'.stream = p.stream := by
  induction fuel generalizing p out with
  | zero => exact ⟨[], p, by simp [drainQuintets], hp, by omega, rfl⟩
  | succ fuel ih =>
    rw [drainQuintets_succ]
    split
    · next hquintet =>
      have hpop := Pool.pop_cnt (k := 5) p
      obtain ⟨q, p', hdrain, hp', hcnt', hbits⟩ := ih (out ++ [rom (p.top 5)]) (Pool.pop_ok (k := 5) hp) (by omega)
      refine ⟨p.top 5 :: q, p', by simp [hdrain], hp', hcnt', ?_⟩
      rw [Pool.stream_pop hp hquintet, symbolStream_cons, List.append_assoc, hbits]
    · exact ⟨[], p, by simp, hp, by omega, rfl⟩

/-- The walk's symbols and what is left in the pool are the bits that were there and the bytes' (R107). -/
theorem encodeWalk_symbols (b : List Byte) {p : Pool} (out : List Byte) (hp : p.Ok) (hcnt : p.cnt.toNat ≤ 4) :
    ∃ (q : List (BitVec 5)) (p' : Pool), encodeWalk p out b = (p', out ++ q.map rom) ∧ p'.Ok ∧ p'.cnt.toNat ≤ 4
      ∧ symbolStream q ++ p'.stream = p.stream ++ byteStream b := by
  induction b generalizing p out with
  | nil => exact ⟨[], p, by simp [encodeWalk], hp, hcnt, by simp⟩
  | cons v b ih =>
    have hfits : p.cnt.toNat + 8 ≤ 12 := by omega
    obtain ⟨q, p', hdrain, hp', hcnt', hbits⟩ := drainQuintets_symbols out (Pool.push_ok v hp hfits) le_rfl
    obtain ⟨q', p'', hwalk, hp'', hcnt'', hbits'⟩ := ih (out ++ q.map rom) hp' hcnt'
    refine ⟨q ++ q', p'', by simp [encodeWalk, hdrain, hwalk], hp'', hcnt'', ?_⟩
    rw [symbolStream_append, List.append_assoc, hbits', ← List.append_assoc, hbits, Pool.stream_push v hp hfits,
      byteStream_cons, List.append_assoc]

/-! ### The symbols of an encoding -/

/-- The data symbols, given what the walk leaves: the final partial quintet is one of them (R108). -/
def dataSymbols (r : Pool × List Byte) : List Byte := if 1 ≤ r.1.cnt.toNat then r.2 ++ [rom r.1.flushed] else r.2

/-- `l` followed by pad codes up to the length `n` (R109). -/
def padTo (n : Nat) (l : List Byte) : List Byte := l ++ List.replicate (n - l.length) padCode

theorem encodeFn_eq (b : List Byte) (pad : Bool) :
    encodeFn b pad =
      if pad then padTo (outputChars b.length) (dataSymbols (encodeWalk .empty [] b))
      else dataSymbols (encodeWalk .empty [] b) := by
  simp only [encodeFn, dataSymbols, Pool.holds_iff]
  rfl

/-- R108: the data symbols of an encoding carry the input's bits and fewer than five zero bits. -/
theorem encodeFn_symbols (b : List Byte) :
    ∃ (q : List (BitVec 5)) (r : Nat), encodeFn b false = q.map rom
      ∧ encodeFn b true = padTo (outputChars b.length) (q.map rom)
      ∧ symbolStream q = byteStream b ++ List.replicate r false ∧ r < 5 := by
  obtain ⟨q, p, hwalk, hp, hcnt, hbits⟩ := encodeWalk_symbols b [] Pool.empty_ok (by decide)
  simp only [List.nil_append, Pool.stream_empty] at hwalk hbits
  simp only [encodeFn_eq, hwalk, dataSymbols, Bool.false_eq_true, if_true, if_false]
  by_cases hrest : 1 ≤ p.cnt.toNat
  · refine ⟨q ++ [p.flushed], 5 - p.cnt.toNat, by simp [hrest], by simp [hrest], ?_, by omega⟩
    rw [symbolStream_append, symbolStream_cons, symbolStream_nil, List.append_nil, Pool.stream_flushed hp (by omega),
      ← List.append_assoc, hbits]
  · have hnone : p.stream = [] := List.length_eq_zero_iff.mp (by rw [Pool.length_stream]; omega)
    refine ⟨q, 0, by simp [hrest], by simp [hrest], ?_, by omega⟩
    rw [← hbits, hnone, List.replicate_zero]
    simp only [List.append_nil]

/-- `quintets` counts them (R106). -/
theorem length_symbols {b : List Byte} {q : List (BitVec 5)} {r : Nat}
    (h : symbolStream q = byteStream b ++ List.replicate r false) (hr : r < 5) : q.length = (8 * b.length + 4) / 5 := by
  have hlen := congrArg List.length h
  simp only [length_symbolStream, List.length_append, length_byteStream, List.length_replicate] at hlen
  omega

theorem outputChars_eq (len : Nat) : outputChars len = 8 * ((len + 4) / 5) := by
  rw [outputChars, quintets, ceilDiv, ceilDiv]
  omega

/-! ### Stripping the padding again (41_decode.md R92) -/

/-- At most six pad codes after symbols are stripped, and the symbols stay: none of them is a pad code. -/
theorem activeLength_symbols (q : List (BitVec 5)) {n : Nat} (hn : n ≤ 6) :
    activeLength (q.map rom ++ List.replicate n padCode) true = q.length := by
  obtain ⟨_, hle, hsix, hpads, hstop⟩ := padStrippingRemovesTrailingPads (q.map rom ++ List.replicate n padCode)
  simp only [List.length_append, List.length_map, List.length_replicate] at hle hsix hpads hstop
  generalize activeLength (q.map rom ++ List.replicate n padCode) true = e at *
  obtain hlt | heq | hgt := Nat.lt_trichotomy e q.length
  · have hpad := hpads e le_rfl (by omega)
    rw [List.getElem?_append_left (by simpa using hlt)] at hpad
    simp only [List.getElem?_map, List.getElem?_eq_getElem hlt, Option.map_some, Option.some.injEq] at hpad
    exact absurd hpad (rom_ne_padCode _)
  · exact heq
  · obtain hend | hzero | hother := hstop
    · omega
    · omega
    · refine absurd ?_ hother
      rw [List.getElem?_append_right (by simp; omega)]
      simp only [List.length_map, List.getElem?_replicate]
      rw [if_pos (by omega)]
      rfl

/-! ### The statements -/

/-- Settles O39: R106's `outputChars` is the next multiple of eight. -/
theorem encodingIsTheBitStreamInQuintets : Obligations.EncodingIsTheBitStreamInQuintets := by
  intro b
  obtain ⟨q, r, hplain, hpadded, hstream, hr⟩ := encodeFn_symbols b
  have hlen := length_symbols hstream hr
  have hchars := outputChars_eq b.length
  refine ⟨q, r, _, hplain, hpadded, ?_, hstream, hr⟩
  rw [List.length_map]
  omega

/-- Settles O37: the number of data symbols, and the padding up to `outputChars`. -/
theorem encodedLengthLaw : Obligations.EncodedLengthLaw := by
  intro b
  obtain ⟨q, r, hplain, hpadded, hstream, hr⟩ := encodeFn_symbols b
  have hlen := length_symbols hstream hr
  have hchars := outputChars_eq b.length
  refine ⟨?_, ?_, hchars⟩
  · rw [hpadded, padTo]
    simp only [List.length_append, List.length_map, List.length_replicate]
    omega
  · rw [hplain, List.length_map, hlen]

/-- Settles O36: the active range of an encoding is its data symbols, whose stream is the input's and zero bits. -/
theorem decodeInvertsEncode : Obligations.DecodeInvertsEncode := by
  intro b pad
  obtain ⟨q, r, hplain, hpadded, hstream, hr⟩ := encodeFn_symbols b
  have hlen := length_symbols hstream hr
  have hchars := outputChars_eq b.length
  obtain ⟨hmod, hactive⟩ : (pad = true → (encodeFn b pad).length % 8 = 0)
      ∧ (encodeFn b pad).take (activeLength (encodeFn b pad) pad) = q.map rom := by
    cases pad with
    | false => exact ⟨nofun, by rw [activeLength, if_neg (by decide), List.take_length, hplain]⟩
    | true =>
      refine ⟨fun _ => by rw [(encodedLengthLaw b).1]; omega, ?_⟩
      rw [hpadded, padTo, List.length_map, activeLength_symbols q (by omega)]
      exact List.take_left' (List.length_map _)
  exact (decodingIsTheBitStreamInBytes _ _ _).mpr ⟨hmod, q, r, hactive, hstream, by omega⟩

end Sys2Proof.Machine
end


section
/-! The pool of no fixed width with its stale bits (40_bitpool.md R87): every primitive reads CNT bits of it at most, so
it gives what the masked pool gives: O43. -/
namespace Sys2Proof.Machine

/-- The wide pool's CNT valid bits are the masked pool's. -/
def WidePool.Holds (w : WidePool) (p : Pool) : Prop :=
  p.Ok ∧ w.cnt = p.cnt.toNat ∧ w.bits % 2 ^ p.cnt.toNat = p.bits.toNat

theorem WidePool.holds_empty : WidePool.Holds ⟨0, 0⟩ .empty := ⟨Pool.empty_ok, rfl, rfl⟩

/-! ### The primitives -/

theorem WidePool.Holds.push {n : Nat} {w : WidePool} {p : Pool} (v : BitVec n) (h : w.Holds p)
    (hfits : p.cnt.toNat + n ≤ 12) : (w.push v).Holds (p.push v) := by
  obtain ⟨hp, hcnt, hbits⟩ := h
  refine ⟨Pool.push_ok v hp hfits, by rw [Pool.push_cnt v hfits, ← hcnt]; rfl, ?_⟩
  rw [Pool.push_cnt v hfits, Pool.push_bits v hp hfits, WidePool.push, shiftIn_eq v.isLt, ← hbits]
  rw [add_comm p.cnt.toNat, pow_add, Nat.mod_mul, mul_comm w.bits, Nat.mul_add_mod, Nat.mod_eq_of_lt v.isLt,
    Nat.mul_add_div (by positivity), Nat.div_eq_of_lt v.isLt, Nat.add_zero]
  ring

theorem WidePool.Holds.pop {w : WidePool} {p : Pool} (k : Nat) (h : w.Holds p) : (w.pop k).Holds (p.pop k) := by
  obtain ⟨hp, hcnt, hbits⟩ := h
  refine ⟨Pool.pop_ok hp, by rw [Pool.pop_cnt, ← hcnt]; rfl, ?_⟩
  rw [Pool.pop_bits, Pool.pop_cnt, ← hbits, WidePool.pop]
  exact (Nat.mod_mod_of_dvd _ (pow_dvd_pow 2 (Nat.sub_le _ _))).symm

/-- POP's `k` bits lie below CNT. -/
theorem WidePool.Holds.top {w : WidePool} {p : Pool} {k : Nat} (h : w.Holds p) (hholds : k ≤ p.cnt.toNat) :
    w.top k = p.top k := by
  obtain ⟨_, hcnt, hbits⟩ := h
  refine BitVec.eq_of_getLsbD_eq fun i hi => ?_
  simp only [WidePool.top, Pool.top, BitVec.getLsbD_ofNat, Nat.testBit_shiftRight, hcnt, ← hbits,
    Nat.testBit_mod_two_pow, hi, show p.cnt.toNat - k + i < p.cnt.toNat by omega, decide_true, Bool.true_and]

theorem WidePool.Holds.residueZero {w : WidePool} {p : Pool} (h : w.Holds p) : w.residueZero = p.residueZero := by
  obtain ⟨hp, hcnt, hbits⟩ := h
  rw [WidePool.residueZero, Pool.residueZero, and_mask, and_mask, hcnt, hbits, Nat.mod_eq_of_lt hp.2]

/-- FLUSH5 shifts the stale bits beyond its five. -/
theorem WidePool.Holds.flushed {w : WidePool} {p : Pool} (h : w.Holds p) (hle : p.cnt.toNat ≤ 5) :
    w.flushed = p.flushed := by
  obtain ⟨_, hcnt, hbits⟩ := h
  refine BitVec.eq_of_getLsbD_eq fun i hi => ?_
  simp only [WidePool.flushed, Pool.flushed, BitVec.getLsbD_ofNat, Nat.testBit_shiftLeft, hcnt, ← hbits,
    Nat.testBit_mod_two_pow]
  obtain hvalid | hzero : i - (5 - p.cnt.toNat) < p.cnt.toNat ∨ ¬ 5 - p.cnt.toNat ≤ i := by omega
  · simp [hvalid]
  · simp [hzero]

/-! ### DecodeFn -/

/-- A walk's two results agree: the same bytes, and pools with the same valid bits. -/
def ResultsAgree (r : WidePool × List Byte) (r' : Pool × List Byte) : Prop := r.1.Holds r'.1 ∧ r.2 = r'.2

/-- Both walks over the same characters give no value, or both give results that agree. -/
theorem wideDecodeWalk_agrees (cs : List Byte) {w : WidePool} {p : Pool} (out : List Byte) (h : w.Holds p)
    (hcnt : p.cnt.toNat ≤ 7) : Option.Rel ResultsAgree (wideDecodeWalk w out cs) (decodeWalk p out cs) := by
  induction cs generalizing w p out with
  | nil => exact .some ⟨h, rfl⟩
  | cons c cs ih =>
    rw [wideDecodeWalk, decodeWalk]
    cases rlut c with
    | none => exact .none
    | some v =>
      have hfits : p.cnt.toNat + 5 ≤ 12 := by omega
      have hpush := h.push v hfits
      have hpushCnt := Pool.push_cnt v hfits
      simp only [hpush.2.1, Pool.holds_iff]
      split
      · next hbyte =>
        rw [hpush.top hbyte]
        exact ih _ (hpush.pop 8) (by rw [Pool.pop_cnt]; omega)
      · exact ih _ hpush (by omega)

theorem wideDecodeFn_eq (t : List Byte) (pad : Bool) : wideDecodeFn t pad = decodeFn t pad := by
  have hwalks := wideDecodeWalk_agrees (t.take (activeLength t pad)) [] WidePool.holds_empty (by decide)
  rw [wideDecodeFn, decodeFn]
  generalize wideDecodeWalk ⟨0, 0⟩ [] (t.take (activeLength t pad)) = wide at hwalks ⊢
  generalize decodeWalk .empty [] (t.take (activeLength t pad)) = narrow at hwalks ⊢
  cases hwalks with
  | none => rfl
  | some hagree =>
    obtain ⟨hpool, hout⟩ := hagree
    simp only [hpool.residueZero, hout]

/-! ### EncodeFn -/

theorem wideDrain_agrees {fuel : Nat} {w : WidePool} {p : Pool} (out : List Byte) (h : w.Holds p) :
    ResultsAgree (wideDrain fuel w out) (drainQuintets fuel p out) := by
  induction fuel generalizing w p out with
  | zero => exact ⟨h, rfl⟩
  | succ fuel ih =>
    rw [drainQuintets_succ, wideDrain, h.2.1]
    split
    · next hquintet =>
      rw [h.top hquintet]
      exact ih _ (h.pop 5)
    · exact ⟨h, rfl⟩

theorem wideEncodeWalk_agrees (b : List Byte) {w : WidePool} {p : Pool} (out : List Byte) (h : w.Holds p)
    (hcnt : p.cnt.toNat ≤ 4) : ResultsAgree (wideEncodeWalk w out b) (encodeWalk p out b) := by
  induction b generalizing w p out with
  | nil => exact ⟨h, rfl⟩
  | cons v b ih =>
    have hfits : p.cnt.toNat + 8 ≤ 12 := by omega
    have hpush := h.push v hfits
    obtain ⟨hpool, hout⟩ := wideDrain_agrees (fuel := (p.push v).cnt.toNat) out hpush
    obtain ⟨q, p', hdrain, _, hcnt', _⟩ := drainQuintets_symbols out hpush.1 le_rfl
    simp only [wideEncodeWalk, encodeWalk, hpush.2.1, hout]
    exact ih _ hpool (by rw [hdrain]; exact hcnt')

theorem wideEncodeFn_eq (b : List Byte) (pad : Bool) : wideEncodeFn b pad = encodeFn b pad := by
  obtain ⟨hpool, hout⟩ := wideEncodeWalk_agrees b [] WidePool.holds_empty (by decide)
  obtain ⟨q, p, hwalk, _, hcnt, _⟩ := encodeWalk_symbols b [] Pool.empty_ok (by decide)
  have hle : (encodeWalk .empty [] b).1.cnt.toNat ≤ 5 := by
    rw [hwalk]
    exact Nat.le_succ_of_le hcnt
  simp only [wideEncodeFn, encodeFn, Pool.holds_iff, hpool.2.1, hout, hpool.flushed hle]

/-- Settles O43: both functions walk the two pools in step. -/
theorem unmaskedPoolGivesTheSameOutputs : Obligations.UnmaskedPoolGivesTheSameOutputs :=
  ⟨wideDecodeFn_eq, wideEncodeFn_eq⟩

end Sys2Proof.Machine
end


section
/-! What an engine step of a running command does to STATUS, OUT_LEN, OBUF and OPOS, said once, and what a whole run
keeps: O35, O54. -/
namespace Sys2Proof.Machine

/-! ### The moves of the engine -/

/-- The registers only FINISH writes (60_exceptions.md R125). -/
def StatusKept (s t : State) : Prop := t.done = s.done ∧ t.result = s.result ∧ t.outLen = s.outLen

theorem statusKept_refl (s : State) : StatusKept s s := ⟨rfl, rfl, rfl⟩

/-- An engine step of a running command rejects it at CHECK, finishes it, or stays busy, and then it writes at most the
OBUF entry at OPOS (20_memory.md R50, R62). -/
inductive EngineMove (s t : State) : Prop
  | rejects (r : Result) (hr : r = .errCmd ∨ r = .errLen) (hphase : s.phase = .check) (ht : t = s.finish r)
  | noValue (hphase : s.phase = .check ∨ s.phase = .dWalk ∨ s.phase = .dResid) (ht : t = s.finish .novalue)
  | succeeds (ht : t = s.finishOk)
  | quiet (hbusy : t.phase ≠ .idle) (hstatus : StatusKept s t) (hobuf : t.obuf = s.obuf) (hopos : t.opos = s.opos)
  | writes (b : Byte) (hbusy : t.phase ≠ .idle) (hstatus : StatusKept s t) (hroom : s.opos.toNat < s.cfg.obufDepth)
      (hobuf : t.obuf = s.obuf.store s.opos.toNat b) (hopos : t.opos = s.opos + 1)

/-- A move to another busy phase that writes no entry. -/
theorem EngineMove.of_phase {s : State} {p : Phase} (hp : p ≠ .idle) : EngineMove s { s with phase := p } :=
  .quiet hp (statusKept_refl s) rfl rfl

theorem stepCheck_move {c : Decoded} {s t : State} (hphase : s.phase = .check) (h : stepCheck c s = .next t) :
    EngineMove s t := by
  obtain ⟨_, _, rfl⟩ | ⟨_, _, _, rfl⟩ | ⟨pad, _, _, h⟩ | ⟨pad, _, _, h⟩ := stepCheck_next h
  · exact .rejects _ (.inl rfl) hphase rfl
  · exact .rejects _ (.inr rfl) hphase rfl
  · rw [checkEncode_next h]
    exact .quiet nofun (statusKept_refl s) rfl rfl
  · obtain ⟨_, _, rfl⟩ | ⟨_, rfl⟩ := checkDecode_next h
    · exact .noValue (.inl hphase) rfl
    · exact .quiet (by cases pad <;> exact nofun) (statusKept_refl s) rfl rfl

theorem stepDStrip_move {s t : State} (hphase : s.phase = .dStrip) (h : stepDStrip s = .next t) : EngineMove s t := by
  obtain ⟨_, _, _, rfl⟩ | ⟨_, rfl⟩ := stepDStrip_next h
  · exact .quiet (by simp [hphase]) (statusKept_refl s) rfl rfl
  · exact .of_phase nofun

theorem stepDWalk_move {s t : State} (hphase : s.phase = .dWalk) (h : stepDWalk s = .next t) : EngineMove s t := by
  have hbusy : s.phase ≠ .idle := by simp [hphase]
  obtain ⟨_, rfl⟩ | ⟨_, _, _, ⟨_, rfl⟩ | ⟨_, _, h⟩⟩ := stepDWalk_next h
  · exact .of_phase nofun
  · exact .noValue (.inr (.inl hphase)) rfl
  · obtain ⟨_, ⟨_, hroom, rfl⟩ | ⟨_, rfl⟩⟩ := acceptSymbol_next h
    · exact .writes _ hbusy (statusKept_refl s) hroom rfl rfl
    · exact .quiet hbusy (statusKept_refl s) rfl rfl

theorem stepDResid_move {s t : State} (hphase : s.phase = .dResid) (h : stepDResid s = .next t) : EngineMove s t := by
  obtain ⟨_, rfl⟩ | ⟨_, rfl⟩ := stepDResid_next h
  · exact .succeeds rfl
  · exact .noValue (.inr (.inr hphase)) rfl

theorem stepEWalk_move {s t : State} (h : stepEWalk s = .next t) : EngineMove s t := by
  obtain ⟨_, rfl⟩ | ⟨_, _, _, _, rfl⟩ := stepEWalk_next h
  · exact .of_phase nofun
  · exact .quiet nofun (statusKept_refl s) rfl rfl

theorem stepEEmit_move {s t : State} (hphase : s.phase = .eEmit) (h : stepEEmit s = .next t) : EngineMove s t := by
  obtain ⟨_, hroom, rfl⟩ | ⟨_, rfl⟩ := stepEEmit_next h
  · exact .writes _ (by simp [hphase]) (statusKept_refl s) hroom rfl rfl
  · exact .of_phase nofun

theorem stepEFlush_move {s t : State} (h : stepEFlush s = .next t) : EngineMove s t := by
  obtain ⟨_, _, hroom, rfl⟩ | ⟨_, rfl⟩ := stepEFlush_next h
  · exact .writes _ nofun (statusKept_refl s) hroom rfl rfl
  · exact .of_phase nofun

theorem stepEPad_move {s t : State} (hphase : s.phase = .ePad) (h : stepEPad s = .next t) : EngineMove s t := by
  obtain ⟨_, hroom, rfl⟩ | ⟨_, rfl⟩ := stepEPad_next h
  · exact .writes _ (by simp [hphase]) (statusKept_refl s) hroom rfl rfl
  · exact .succeeds rfl

theorem engineStep_move {s t : State} (hbusy : s.phase ≠ .idle) (h : engineStep s = .next t) : EngineMove s t := by
  cases hphase : s.phase with
  | idle => exact absurd hphase hbusy
  | check => exact stepCheck_move hphase (engineStep_check hphase ▸ h)
  | dStrip => exact stepDStrip_move hphase (engineStep_dStrip hphase ▸ h)
  | dWalk => exact stepDWalk_move hphase (engineStep_dWalk hphase ▸ h)
  | dResid => exact stepDResid_move hphase (engineStep_dResid hphase ▸ h)
  | eWalk => exact stepEWalk_move (engineStep_eWalk hphase ▸ h)
  | eEmit => exact stepEEmit_move hphase (engineStep_eEmit hphase ▸ h)
  | eFlush => exact stepEFlush_move (engineStep_eFlush hphase ▸ h)
  | ePad => exact stepEPad_move hphase (engineStep_ePad hphase ▸ h)

/-- A step that ends the command is a FINISH. -/
theorem EngineMove.finished {s t : State} (h : EngineMove s t) (hidle : t.phase = .idle) : Finished t := by
  obtain ⟨r, hr, _, rfl⟩ | ⟨_, rfl⟩ | rfl | ⟨hbusy, _⟩ | ⟨_, hbusy, _⟩ := h
  · obtain rfl | rfl := hr <;> exact ⟨rfl, rfl, nofun⟩
  · exact ⟨rfl, rfl, nofun⟩
  · exact ⟨rfl, rfl, nofun⟩
  · exact absurd hidle hbusy
  · exact absurd hidle hbusy

/-- A step that does not end the command leaves RESULT, DONE and OUT_LEN alone. -/
theorem EngineMove.statusKept {s t : State} (h : EngineMove s t) (hbusy : t.phase ≠ .idle) : StatusKept s t := by
  obtain ⟨r, _, _, rfl⟩ | ⟨_, rfl⟩ | rfl | ⟨_, hstatus⟩ | ⟨_, _, hstatus⟩ := h
  · exact absurd rfl hbusy
  · exact absurd rfl hbusy
  · exact absurd rfl hbusy
  · exact hstatus
  · exact hstatus

/-! ### Whole runs -/

/-- What every engine step of a running command keeps under EngineOk, a run of the latched command keeps, and EngineOk
with it. -/
theorem engineRun_invariant {P : State → Prop}
    (hstep : ∀ s t, EngineOk s → s.phase ≠ .idle → P s → engineStep s = .next t → P t) {n : Nat} {s u : State}
    (hs : EngineOk s) (hP : P s) (h : engineRun (decodeCmd s.lCmd) n s = .next u) : EngineOk u ∧ P u := by
  refine (engineRun_induction (P := fun t => t.lCmd = s.lCmd ∧ EngineOk t ∧ P t) ?_ n s u ⟨rfl, hs, hP⟩ h).2
  rintro t t' ⟨hword, ht, hPt⟩ hnext
  obtain ⟨_, hword', _⟩ := engineStepOf_keeps hnext
  by_cases hidle : t.phase = .idle
  · rw [engineStepOf, hidle] at hnext
    exact Host.Outcome.next.inj hnext ▸ ⟨hword, ht, hPt⟩
  · have hnext' : engineStep t = .next t' := by rw [engineStep, hword, hnext]
    obtain ⟨t'', hadv, hok, _⟩ := engineStep_advances ht hidle
    obtain rfl : t' = t'' := Host.Outcome.next.inj (hnext'.symm.trans hadv)
    exact ⟨hword'.trans hword, hok, hstep t t' ht hidle hPt hnext'⟩

/-- The same of a running command as one action, legal word or not. -/
theorem runCommand_invariant {P : State → Prop}
    (hstep : ∀ s t, EngineOk s → s.phase ≠ .idle → P s → engineStep s = .next t → P t) {s u : State}
    (hs : EngineOk s) (hbusy : s.phase ≠ .idle) (hP : P s) (h : runCommand s = .next u) : EngineOk u ∧ P u := by
  unfold runCommand at h
  split at h
  · next i hcmd =>
    rw [exec_eq_engineRun, ← hcmd] at h
    exact engineRun_invariant hstep hs hP h
  · obtain ⟨t, hadv, hok, _⟩ := engineStep_advances hs hbusy
    obtain rfl : u = t := Host.Outcome.next.inj (h.symm.trans hadv)
    exact ⟨hok, hstep s u hs hbusy hP h⟩

/-- A running command that has come to IDLE has finished. -/
theorem runCommand_finished {s u : State} (hs : EngineOk s) (hbusy : s.phase ≠ .idle) (h : runCommand s = .next u)
    (hidle : u.phase = .idle) : Finished u :=
  (runCommand_invariant (P := fun t => t.phase = .idle → Finished t)
    (fun _ _ _ hb _ hnext => (engineStep_move hb hnext).finished) hs hbusy (absurd · hbusy) h).2 hidle

/-! ### The bound (70_reset_and_hazards.md R145, R146) -/

/-- Where a DECODE runs, the latched word is a DECODE's, and AEND is within the input. -/
theorem Decoding.instr {s : State} {i : Instr} (hcmd : decodeCmd s.lCmd = .command i) (h : Decoding s) :
    ∃ pad, i = .decode pad ∧ s.aend.toNat ≤ s.lLen.toNat := by
  obtain ⟨pad, hword, _, hrange, _⟩ := h
  exact ⟨pad, Decoded.command.inj (hcmd.symm.trans hword), by omega⟩

/-- Where an ENCODE runs, the latched word is an ENCODE's, and ETOTAL is within the padded encoding. -/
theorem encode_instr {s : State} {i : Instr} {pad : Bool} (hcmd : decodeCmd s.lCmd = .command i)
    (hword : decodeCmd s.lCmd = .command (.encode pad)) (htotal : s.etotal.toNat = encodedLength pad s.lLen.toNat) :
    i = .encode pad ∧ s.etotal.toNat ≤ 8 * ceilDiv s.lLen.toNat 5 :=
  ⟨Decoded.command.inj (hcmd.symm.trans hword), htotal ▸ encodedLength_le pad _⟩

theorem Encoding.instr {s : State} {i : Instr} (hcmd : decodeCmd s.lCmd = .command i) (h : Encoding s) :
    ∃ pad, i = .encode pad ∧ s.etotal.toNat ≤ 8 * ceilDiv s.lLen.toNat 5 := by
  obtain ⟨pad, hword, _, htotal, _⟩ := h
  exact ⟨pad, encode_instr hcmd hword htotal⟩

/-- In every phase of a command no more steps are left than its bound. -/
theorem stepsLeft_le_stepBound {s : State} {i : Instr} (hs : EngineOk s) (hcmd : decodeCmd s.lCmd = .command i) :
    s.stepsLeft ≤ stepBound i s.lLen.toNat := by
  obtain ⟨_, _, hnstrip, hph⟩ := hs
  rw [PhaseOk] at hph
  rw [State.stepsLeft]
  cases hphase : s.phase with
  | idle => exact Nat.zero_le _
  | check => rw [hcmd]
  | dStrip =>
    rw [hphase] at hph
    obtain ⟨pad, rfl, haend⟩ := hph.1.instr hcmd
    simp only [stepBound, decodeStepBound]
    omega
  | dWalk =>
    rw [hphase] at hph
    obtain ⟨pad, rfl, haend⟩ := hph.instr hcmd
    simp only [stepBound, decodeStepBound]
    omega
  | dResid =>
    rw [hphase] at hph
    obtain ⟨pad, rfl, _⟩ := hph.1.instr hcmd
    simp only [stepBound, decodeStepBound]
    omega
  | eWalk =>
    rw [hphase] at hph
    obtain ⟨pad, rfl, hle⟩ := hph.1.instr hcmd
    simp only [stepBound, encodeStepBound, quintets]
    omega
  | eEmit =>
    rw [hphase] at hph
    obtain ⟨pad, rfl, hle⟩ := hph.instr hcmd
    simp only [stepBound, encodeStepBound, quintets]
    omega
  | eFlush =>
    rw [hphase] at hph
    obtain ⟨pad, rfl, hle⟩ := hph.1.instr hcmd
    simp only [stepBound, encodeStepBound, quintets]
    omega
  | ePad =>
    rw [hphase] at hph
    obtain ⟨pad, hword, _, htotal, _, hdata, _⟩ := hph
    obtain ⟨rfl, hle⟩ := encode_instr hcmd hword htotal
    simp only [quintets] at hdata
    simp only [stepBound, encodeStepBound]
    omega

/-- Past CHECK the word is legal. -/
theorem phase_check_of_illegal {s : State} {why : IllegalWord} (hs : EngineOk s) (hbusy : s.phase ≠ .idle)
    (hcmd : decodeCmd s.lCmd = .illegal why) : s.phase = .check := by
  obtain ⟨_, _, _, hph⟩ := hs
  rw [PhaseOk] at hph
  cases hphase : s.phase <;> rw [hphase] at hph <;> simp_all [Decoding, Encoding]

/-- From every busy state the running command reaches FINISH with the result it is bound for. -/
theorem runCommand_reaches_verdict {s : State} (hs : EngineOk s) (hbusy : s.phase ≠ .idle) :
    ∃ u, runCommand s = .next u ∧ u.phase = .idle ∧ u.result = s.verdict := by
  cases hcmd : decodeCmd s.lCmd with
  | command i =>
    obtain ⟨u, hrun, hu⟩ := engineRun_reaches_verdict hs (stepsLeft_le_stepBound hs hcmd)
    refine ⟨u, ?_, hu⟩
    rw [runCommand, hcmd]
    exact (exec_eq_engineRun i s).trans (hcmd ▸ hrun)
  | illegal why =>
    rw [runCommand_eq_engineRun (phase_check_of_illegal hs hbusy hcmd)]
    exact engineRun_reaches_verdict hs le_rfl

theorem runCommand_eq_exec {s : State} {i : Instr} (hcmd : decodeCmd s.lCmd = .command i) :
    runCommand s = exec i s := by
  rw [runCommand, hcmd]

/-! ### The statements -/

/-- The engine's part of the invariant. -/
theorem Inv.engineOk {s : State} (h : Inv s) : EngineOk s := by
  obtain ⟨hcfg, _, hpool, _, hnstrip, hphase⟩ := h
  exact ⟨hcfg, hpool, hnstrip, hphase⟩

/-- Settles O35: no more steps are left than the bound, and the last of them is a FINISH. -/
theorem everyCommandFinishesWithinItsBound : Obligations.EveryCommandFinishesWithinItsBound := by
  intro s i hinv hbusy hcmd
  obtain ⟨u, hrun, hidle, _⟩ := runCommand_reaches_verdict hinv.engineOk hbusy
  obtain ⟨_, hdone, hresult⟩ := runCommand_finished hinv.engineOk hbusy hrun hidle
  refine ⟨u, ?_, hidle, hdone, hresult⟩
  rw [← exec_eq_engineRun, ← runCommand_eq_exec hcmd, hrun]

/-- Settles O54: what the host can read outside OBUF, a step that stays busy keeps. -/
theorem nothingIsVisibleBeforeFinish : Obligations.NothingIsVisibleBeforeFinish := by
  intro s u a h hbusy hbusy' hobuf
  obtain ⟨hdone, hresult, houtLen⟩ := (engineStep_move hbusy h).statusKept hbusy'
  obtain ⟨hcfg, _, _, hibuf, hinLen, hdrop, _, hresets, _⟩ := engineStepOf_keeps h
  have hstatus : u.status = s.status := by simp [State.status, State.busy, hdone, hresult, hdrop, hbusy, hbusy']
  rw [hostReadValue, hostReadValue, hcfg]
  cases ha : target s.cfg a with
  | obuf i => exact absurd ha (hobuf i)
  | status => exact hstatus
  | inLen => exact hinLen
  | outLen => exact houtLen
  | ibuf i => simp only [State.ibufByte, hibuf, hresets]
  | cmd => rfl
  | unmapped => rfl

end Sys2Proof.Machine
end


section
/-! What a command will output, phase by phase, in the terms of DecodeFn and EncodeFn. Every engine step keeps it, as it
keeps the result (41_decode.md R103, 42_encode.md R116). -/
namespace Sys2Proof.Machine

/-! ### The output so far -/

/-- OBUF[0 .. OPOS-1] (10_state.md R31). -/
def State.written (s : State) : List Byte := (List.range s.opos.toNat).map s.obufByte

@[simp] theorem State.length_written (s : State) : s.written.length = s.opos.toNat := by simp [State.written]

theorem written_of_opos_zero {s : State} (h : s.opos.toNat = 0) : s.written = [] := by simp [State.written, h]

theorem obufByte_congr {s t : State} (hobuf : t.obuf = s.obuf) (hresets : t.resets = s.resets) (j : Nat) :
    t.obufByte j = s.obufByte j := by
  rw [State.obufByte, State.obufByte, hobuf, hresets]

theorem obufByte_of_store_self {s t : State} {i : Nat} {b : Byte} (hobuf : t.obuf = s.obuf.store i b) :
    t.obufByte i = b := by
  simp [State.obufByte, hobuf]

theorem obufByte_of_store_other {s t : State} {i j : Nat} {b : Byte} (hobuf : t.obuf = s.obuf.store i b)
    (hresets : t.resets = s.resets) (h : j ≠ i) : t.obufByte j = s.obufByte j := by
  simp [State.obufByte, hobuf, hresets, Memory.stored_store_other _ _ h]

/-- A byte written at OPOS is the last of the output so far. -/
theorem written_of_store {s t : State} {b : Byte} (hobuf : t.obuf = s.obuf.store s.opos.toNat b)
    (hopos : t.opos.toNat = s.opos.toNat + 1) (hresets : t.resets = s.resets) : t.written = s.written ++ [b] := by
  rw [State.written, hopos, List.range_succ, List.map_append, List.map_singleton, obufByte_of_store_self hobuf,
    State.written]
  congr 1
  refine List.map_congr_left fun j hj => obufByte_of_store_other hobuf hresets ?_
  have := List.mem_range.mp hj
  omega

/-! ### EncodeFn's last part -/

theorem padTo_of_le {n : Nat} {l : List Byte} (h : n ≤ l.length) : padTo n l = l := by
  simp [padTo, Nat.sub_eq_zero_of_le h]

/-- One pad code more leaves one less to come. -/
theorem padTo_append {n : Nat} {l : List Byte} (h : l.length < n) : padTo n (l ++ [padCode]) = padTo n l := by
  obtain ⟨k, hk⟩ := Nat.exists_eq_add_of_lt h
  have hk' : n - l.length = k + 1 := by omega
  have hk'' : n - (l ++ [padCode]).length = k := by
    rw [List.length_append, List.length_singleton]
    omega
  rw [padTo, padTo, hk', hk'', List.append_assoc, List.replicate_succ]
  rfl

/-- EncodeFn by ETOTAL (R106, R109). -/
theorem encodeFn_eq_padTo (b : List Byte) (pad : Bool) :
    encodeFn b pad = padTo (encodedLength pad b.length) (dataSymbols (encodeWalk .empty [] b)) := by
  rw [encodeFn_eq]
  cases pad with
  | true =>
    have hchars : outputChars b.length = encodedLength true b.length := outputChars_eq b.length
    rw [hchars, if_pos rfl]
  | false =>
    have hplain := encodeFn_eq b false
    rw [if_neg (by decide)] at hplain ⊢
    have hlen : (dataSymbols (encodeWalk .empty [] b)).length = encodedLength false b.length :=
      hplain ▸ (encodedLengthLaw b).2.1
    rw [padTo_of_le hlen.ge]

theorem Pool.holds_eq_false {p : Pool} {k : Nat} : p.holds k = false ↔ p.cnt.toNat < k := by simp [Pool.holds]

theorem drainQuintets_end {fuel : Nat} {p : Pool} (out : List Byte) (h : p.cnt.toNat ≤ 4) :
    drainQuintets fuel p out = (p, out) := by
  cases fuel with
  | zero => rfl
  | succ fuel => rw [drainQuintets_succ, if_neg (by omega)]

/-- The inner loop needs no more rounds than CNT. -/
theorem drainQuintets_fuel {m n : Nat} {p : Pool} (out : List Byte) (hm : p.cnt.toNat ≤ m) (hn : p.cnt.toNat ≤ n) :
    drainQuintets m p out = drainQuintets n p out := by
  induction m generalizing n p out with
  | zero => rw [drainQuintets_end out (by omega), drainQuintets_end out (by omega)]
  | succ m ih =>
    by_cases hquintet : 5 ≤ p.cnt.toNat
    · have hpop := Pool.pop_cnt (k := 5) p
      cases n with
      | zero => omega
      | succ n =>
        rw [drainQuintets_succ, drainQuintets_succ, if_pos hquintet, if_pos hquintet]
        exact ih _ (by omega) (by omega)
    · rw [drainQuintets_end out (by omega), drainQuintets_end out (by omega)]

/-- A round of the inner loop, with CNT as the bound before it and after it. -/
theorem drainQuintets_round {p : Pool} (out : List Byte) (h : 5 ≤ p.cnt.toNat) :
    drainQuintets p.cnt.toNat p out =
      drainQuintets (p.pop 5).cnt.toNat (p.pop 5) (out ++ [rom (p.top 5)]) := by
  have hpop := Pool.pop_cnt (k := 5) p
  rw [drainQuintets_fuel out le_rfl (Nat.le_succ _), drainQuintets_succ, if_pos h]
  exact drainQuintets_fuel _ (by omega) le_rfl

/-! ### The promise -/

/-- What a command word gives on the input `t`, if it gives a value. -/
def commandFn (ibufDepth : Nat) (w : Word) (t : List Byte) : Option (List Byte) :=
  match decodeCmd w with
  | .illegal _ => none
  | .command i =>
    if ibufDepth < t.length then none
    else
      match i with
      | .encode pad => some (encodeFn t pad)
      | .decode pad => decodeFn t pad

/-- The output the command will give, by phase, and once IDLE the one it has given; `none` where RESULT is not OK. -/
def State.promise (s : State) : Option (List Byte) :=
  match s.phase with
  | .idle => if s.result = .ok then some s.output else none
  | .check => commandFn s.cfg.ibufDepth s.lCmd s.input
  | .dStrip => decodeEnd (decodeWalk .empty [] (s.input.take (stripPads s.input (6 - s.nstrip.toNat) s.aend.toNat)))
  | .dWalk => decodeEnd (decodeWalk s.pool s.written ((s.input.take s.aend.toNat).drop s.ipos.toNat))
  | .dResid => decodeEnd (some (s.pool, s.written))
  | .eWalk => some (padTo s.etotal.toNat (dataSymbols (encodeWalk s.pool s.written (s.input.drop s.ipos.toNat))))
  | .eEmit =>
    let r := drainQuintets s.pool.cnt.toNat s.pool s.written
    some (padTo s.etotal.toNat (dataSymbols (encodeWalk r.1 r.2 (s.input.drop s.ipos.toNat))))
  | .eFlush => some (padTo s.etotal.toNat (dataSymbols (s.pool, s.written)))
  | .ePad => some (padTo s.etotal.toNat s.written)

theorem commandFn_overlong {depth : Nat} {w : Word} {t : List Byte} {i : Instr} (hcmd : decodeCmd w = .command i)
    (hlong : depth < t.length) : commandFn depth w t = none := by
  rw [commandFn, hcmd]
  exact if_pos hlong

theorem commandFn_encode {depth : Nat} {w : Word} {t : List Byte} {pad : Bool}
    (hcmd : decodeCmd w = .command (.encode pad)) (hlen : t.length ≤ depth) :
    commandFn depth w t = some (encodeFn t pad) := by
  rw [commandFn, hcmd]
  exact if_neg (Nat.not_lt.mpr hlen)

theorem commandFn_decode {depth : Nat} {w : Word} {t : List Byte} {pad : Bool}
    (hcmd : decodeCmd w = .command (.decode pad)) (hlen : t.length ≤ depth) :
    commandFn depth w t = decodeFn t pad := by
  rw [commandFn, hcmd]
  exact if_neg (Nat.not_lt.mpr hlen)

theorem promise_errCmd (s : State) : (s.finish .errCmd).promise = none := rfl

theorem promise_errLen (s : State) : (s.finish .errLen).promise = none := rfl

theorem promise_novalue (s : State) : (s.finish .novalue).promise = none := rfl

theorem promise_finishOk (s : State) : s.finishOk.promise = some s.written := rfl

theorem EngineKeeps.input {s t : State} (h : EngineKeeps s t) : t.input = s.input := by
  obtain ⟨_, _, hlen, hibuf, _, _, _, hresets, _⟩ := h
  have hbytes : t.ibufByte = s.ibufByte := by
    funext i
    simp only [State.ibufByte, hibuf, hresets]
  rw [State.input, State.input, hlen, hbytes]

/-! ### CHECK -/

theorem check_promise {s t : State} (hs : EngineOk s) (hphase : s.phase = .check) (h : engineStep s = .next t) :
    t.promise = s.promise := by
  obtain ⟨hcfg, _, _, hph⟩ := hs
  rw [PhaseOk, hphase] at hph
  obtain ⟨hempty, hipos, hopos, _, hstrip, _⟩ := hph
  have hwritten : s.written = [] := written_of_opos_zero (by simp [hopos])
  have hpromise : s.promise = commandFn s.cfg.ibufDepth s.lCmd s.input := by simp only [State.promise, hphase]
  rw [engineStep_check hphase] at h
  have hlength := s.length_input
  rw [hpromise]
  obtain ⟨_, hcmd, rfl⟩ | ⟨_, hcmd, hlong, rfl⟩ | ⟨pad, hcmd, hlen, h⟩ | ⟨pad, hcmd, hlen, h⟩ := stepCheck_next h
  · rw [promise_errCmd, commandFn, hcmd]
  · rw [promise_errLen, commandFn_overlong hcmd (hlength ▸ hlong)]
  · have hfit := (encodedLength_le pad _).trans (Config.encoded_le_obufDepth hcfg hlen)
    have hdepth := (Config.depths_le hcfg).2
    have htotal : (BitVec.ofNat 32 (encodedLength pad s.lLen.toNat)).toNat = encodedLength pad s.lLen.toNat := by
      rw [BitVec.toNat_ofNat]
      omega
    have hfn : encodeFn s.input pad = padTo (BitVec.ofNat 32 (encodedLength pad s.lLen.toNat)).toNat
        (dataSymbols (encodeWalk s.pool s.written s.input)) := by
      rw [htotal, hempty, hwritten, encodeFn_eq_padTo, hlength]
    rw [checkEncode_next h, commandFn_encode hcmd (hlength ▸ hlen), hfn]
    simp only [State.promise, hipos]
    rfl
  · rw [commandFn_decode hcmd (hlength ▸ hlen), decodeFn_eq, hlength]
    obtain ⟨hpad, hmod, rfl⟩ | ⟨hmod, rfl⟩ := checkDecode_next h
    · rw [promise_novalue, if_pos ⟨hpad, hmod⟩]
    · have hok : ¬ (pad = true ∧ s.lLen.toNat % 8 ≠ 0) := fun ⟨hpad, hbad⟩ => hbad (hmod hpad)
      rw [if_neg hok, activeLength, hlength]
      cases pad with
      | true =>
        simp only [State.promise, hstrip, if_true]
        rfl
      | false =>
        rw [← hempty, ← hwritten]
        simp only [State.promise, hipos, Bool.false_eq_true, if_false]
        rfl

/-! ### DECODE -/

/-- Where R100 strips no further, the stripping of R92 has ended. -/
theorem State.stripPads_of_stop (s : State) (haend : s.aend.toNat ≤ s.lLen.toNat)
    (hlen : s.lLen.toNat ≤ s.cfg.ibufDepth)
    (hstop : ¬ (s.nstrip.toNat < 6 ∧ 0 < s.aend.toNat ∧ s.engineRead (s.aend.toNat - 1) = some padCode)) :
    stripPads s.input (6 - s.nstrip.toNat) s.aend.toNat = s.aend.toNat := by
  by_cases hmore : s.nstrip.toNat < 6 ∧ 0 < s.aend.toNat
  · obtain ⟨hn, he⟩ := hmore
    rw [s.stripPads_round hn he haend]
    exact if_neg fun hc => hstop ⟨hn, he, engineRead_eq_some.mpr ⟨by omega, hc⟩⟩
  · exact stripPads_end _ hmore

theorem dStrip_promise {s t : State} (hs : EngineOk s) (hphase : s.phase = .dStrip) (h : engineStep s = .next t) :
    t.promise = s.promise := by
  obtain ⟨hcfg, hpool, hnstrip, hph⟩ := hs
  rw [PhaseOk, hphase] at hph
  obtain ⟨⟨_, _, hlen, hrange, _, hcount, _⟩, _, _, hipos⟩ := hph
  rw [engineStep_dStrip hphase] at h
  have hpromise : s.promise =
      decodeEnd (decodeWalk .empty [] (s.input.take (stripPads s.input (6 - s.nstrip.toNat) s.aend.toNat))) := by
    simp only [State.promise, hphase]
  obtain ⟨hn, he, hread, rfl⟩ | ⟨hstop, rfl⟩ := stepDStrip_next h
  · obtain ⟨_, hc⟩ := engineRead_eq_some.mp hread
    have haend : (s.aend - 1).toNat = s.aend.toNat - 1 := by bv_omega
    have hstrip : (s.nstrip + 1).toNat = s.nstrip.toNat + 1 := by bv_omega
    rw [hpromise, s.stripPads_round hn he (by omega), if_pos hc]
    simp only [State.promise, hphase, haend, hstrip]
    rfl
  · have hend := s.stripPads_of_stop (by omega) hlen hstop
    have hzero : s.ipos.toNat = 0 := by simp [hipos]
    have hempty : s.pool = .empty := Pool.eq_empty hpool (by omega)
    have hwritten : s.written = [] := written_of_opos_zero (by omega)
    rw [hpromise, hend, ← hempty, ← hwritten]
    simp only [State.promise, hipos]
    rfl

/-- What one symbol adds to the output so far. -/
theorem acceptSymbol_written {v : BitVec 5} {s t : State} (hcfg : s.cfg.wf = true) (h : acceptSymbol v s = .next t) :
    t.pool = s.pool.afterSymbol v ∧ t.written = s.written ++ s.pool.bytesOf v ∧ t.phase = s.phase
      ∧ t.ipos = s.ipos + 1 ∧ t.aend = s.aend := by
  obtain ⟨_, ⟨hbyte, hroom, rfl⟩ | ⟨hbyte, rfl⟩⟩ := acceptSymbol_next h
  · rw [Pool.holds_iff] at hbyte
    rw [Pool.afterSymbol, Pool.bytesOf, if_pos hbyte, if_pos hbyte]
    exact ⟨rfl, written_of_store rfl (toNat_add_one hroom (Config.depths_le hcfg).2) rfl, rfl, rfl, rfl⟩
  · have hcnt := Nat.not_le.mpr (Pool.holds_eq_false.mp hbyte)
    rw [Pool.afterSymbol, Pool.bytesOf, if_neg hcnt, if_neg hcnt, List.append_nil]
    exact ⟨rfl, rfl, rfl, rfl, rfl⟩

theorem dWalk_promise {s t : State} (hs : EngineOk s) (hphase : s.phase = .dWalk) (h : engineStep s = .next t) :
    t.promise = s.promise := by
  obtain ⟨hcfg, hpool, _, hph⟩ := hs
  rw [PhaseOk, hphase] at hph
  have hpromise : s.promise =
      decodeEnd (decodeWalk s.pool s.written ((s.input.take s.aend.toNat).drop s.ipos.toNat)) := by
    simp only [State.promise, hphase]
  have hinput := (engineStepOf_keeps h).input
  rw [engineStep_dWalk hphase] at h
  rw [hpromise]
  obtain ⟨hend, rfl⟩ | ⟨hend, c, hread, hc⟩ := stepDWalk_next h
  · rw [hend, List.drop_eq_nil_of_le (List.length_take_le _ _)]
    rfl
  · obtain ⟨hlt, haend, hdepth, _⟩ := Decoding.walk_bounds hph hcfg hend
    obtain ⟨_, rfl⟩ := engineRead_eq_some.mp hread
    rw [s.drop_take_input hlt haend]
    obtain ⟨hnone, rfl⟩ | ⟨v, hv, h⟩ := hc
    · rw [decodeWalk_cons_none hnone, promise_novalue]
      rfl
    · obtain ⟨hpool', hwritten, hphase', hipos, haend'⟩ := acceptSymbol_written hcfg h
      rw [decodeWalk_cons hv, ← hpool', ← hwritten]
      simp only [State.promise, hphase', hphase, hipos, haend', hinput,
        toNat_add_one hdepth (Config.depths_le hcfg).1]

theorem dResid_promise {s t : State} (hphase : s.phase = .dResid) (h : engineStep s = .next t) :
    t.promise = s.promise := by
  have hpromise : s.promise = decodeEnd (some (s.pool, s.written)) := by simp only [State.promise, hphase]
  rw [engineStep_dResid hphase] at h
  rw [hpromise, decodeEnd]
  obtain ⟨hzero, rfl⟩ | ⟨hzero, rfl⟩ := stepDResid_next h
  · rw [promise_finishOk, if_pos hzero]
  · rw [promise_novalue, if_neg (by simp [hzero])]

/-! ### ENCODE -/

theorem eWalk_promise {s t : State} (hs : EngineOk s) (hphase : s.phase = .eWalk) (h : engineStep s = .next t) :
    t.promise = s.promise := by
  obtain ⟨hcfg, _, _, hph⟩ := hs
  rw [PhaseOk, hphase] at hph
  obtain ⟨⟨_, _, hlen, _, hle, _⟩, _⟩ := hph
  have hpromise : s.promise =
      some (padTo s.etotal.toNat (dataSymbols (encodeWalk s.pool s.written (s.input.drop s.ipos.toNat)))) := by
    simp only [State.promise, hphase]
  rw [engineStep_eWalk hphase] at h
  rw [hpromise]
  obtain ⟨hend, rfl⟩ | ⟨hend, _, b, hread, rfl⟩ := stepEWalk_next h
  · rw [hend, ← s.length_input, List.drop_length]
    rfl
  · have hne : s.ipos.toNat ≠ s.lLen.toNat := fun e => hend (BitVec.eq_of_toNat_eq e)
    obtain ⟨hdepth, rfl⟩ := engineRead_eq_some.mp hread
    have hnext := s.drop_take_input (show s.ipos.toNat < s.lLen.toNat by omega) le_rfl
    rw [← s.length_input, List.take_length] at hnext
    rw [hnext, encodeWalk]
    simp only [State.promise, toNat_add_one hdepth (Config.depths_le hcfg).1]
    rfl

theorem eEmit_promise {s t : State} (hs : EngineOk s) (hphase : s.phase = .eEmit) (h : engineStep s = .next t) :
    t.promise = s.promise := by
  obtain ⟨hcfg, _, _, _⟩ := hs
  have hpromise : s.promise = some (padTo s.etotal.toNat (dataSymbols (encodeWalk
      (drainQuintets s.pool.cnt.toNat s.pool s.written).1 (drainQuintets s.pool.cnt.toNat s.pool s.written).2
      (s.input.drop s.ipos.toNat)))) := by
    simp only [State.promise, hphase]
  rw [engineStep_eEmit hphase] at h
  rw [hpromise]
  obtain ⟨hquintet, hroom, rfl⟩ | ⟨hquintet, rfl⟩ := stepEEmit_next h
  · rw [drainQuintets_round _ (Pool.holds_iff.mp hquintet),
      ← written_of_store (t := { s with
        pool := s.pool.pop 5
        obuf := s.obuf.store s.opos.toNat (rom (s.pool.top 5)), opos := s.opos + 1 }) rfl
        (toNat_add_one hroom (Config.depths_le hcfg).2) rfl]
    simp only [State.promise, hphase]
    rfl
  · rw [drainQuintets_end _ (Nat.le_of_lt_succ (Pool.holds_eq_false.mp hquintet))]
    rfl

theorem eFlush_promise {s t : State} (hs : EngineOk s) (hphase : s.phase = .eFlush) (h : engineStep s = .next t) :
    t.promise = s.promise := by
  obtain ⟨hcfg, _, _, _⟩ := hs
  have hpromise : s.promise = some (padTo s.etotal.toNat (dataSymbols (s.pool, s.written))) := by
    simp only [State.promise, hphase]
  rw [engineStep_eFlush hphase] at h
  rw [hpromise, dataSymbols]
  obtain ⟨hrest, _, hroom, rfl⟩ | ⟨hrest, rfl⟩ := stepEFlush_next h
  · rw [if_pos (Pool.holds_iff.mp hrest),
      ← written_of_store (t := { s with
        pool := .empty, phase := .ePad
        obuf := s.obuf.store s.opos.toNat (rom s.pool.flushed), opos := s.opos + 1 }) rfl
        (toNat_add_one hroom (Config.depths_le hcfg).2) rfl]
    rfl
  · rw [if_neg (Nat.not_le.mpr (Pool.holds_eq_false.mp hrest))]
    rfl

theorem ePad_promise {s t : State} (hs : EngineOk s) (hphase : s.phase = .ePad) (h : engineStep s = .next t) :
    t.promise = s.promise := by
  obtain ⟨hcfg, _, _, _⟩ := hs
  have hpromise : s.promise = some (padTo s.etotal.toNat s.written) := by simp only [State.promise, hphase]
  rw [engineStep_ePad hphase] at h
  rw [hpromise]
  obtain ⟨hmore, hroom, rfl⟩ | ⟨hend, rfl⟩ := stepEPad_next h
  · rw [← padTo_append (by rwa [s.length_written]),
      ← written_of_store (t := { s with obuf := s.obuf.store s.opos.toNat padCode, opos := s.opos + 1 }) rfl
        (toNat_add_one hroom (Config.depths_le hcfg).2) rfl]
    simp only [State.promise, hphase]
  · rw [promise_finishOk, padTo_of_le (by rwa [s.length_written])]

/-! ### Every step -/

theorem engineStep_promise {s t : State} (hs : EngineOk s) (hbusy : s.phase ≠ .idle) (h : engineStep s = .next t) :
    t.promise = s.promise := by
  cases hphase : s.phase with
  | idle => exact absurd hphase hbusy
  | check => exact check_promise hs hphase h
  | dStrip => exact dStrip_promise hs hphase h
  | dWalk => exact dWalk_promise hs hphase h
  | dResid => exact dResid_promise hphase h
  | eWalk => exact eWalk_promise hs hphase h
  | eEmit => exact eEmit_promise hs hphase h
  | eFlush => exact eFlush_promise hs hphase h
  | ePad => exact ePad_promise hs hphase h

end Sys2Proof.Machine
end


section
/-! The outcome of a whole command (00_scope.md R11): its run reaches FINISH with the result it is bound for and the
output it promised: O29, O30. -/
namespace Sys2Proof.Machine

/-! ### STATUS along a run -/

theorem statusOk_finish (s : State) {r : Result} (hr : r ≠ .none) : StatusOk (s.finish r) :=
  ⟨fun hbusy => absurd rfl hbusy, fun _ => .inr ⟨rfl, hr⟩, fun (hne : r ≠ .ok) => if_neg hne⟩

/-- R21 and R26 after any engine step of a running command. -/
theorem EngineMove.statusOk {s t : State} (h : EngineMove s t) (hbusy : s.phase ≠ .idle) (hs : StatusOk s) :
    StatusOk t := by
  obtain ⟨hrunning, _, houtLen⟩ := hs
  obtain ⟨hdone, hresult⟩ := hrunning hbusy
  have hkept : t.phase ≠ .idle → StatusKept s t → StatusOk t := by
    rintro hbusy' ⟨hdone', hresult', houtLen'⟩
    exact ⟨fun _ => ⟨hdone'.trans hdone, hresult'.trans hresult⟩, fun hidle => absurd hidle hbusy',
      fun hne => houtLen'.trans (houtLen (hresult' ▸ hne))⟩
  obtain ⟨r, hr, _, rfl⟩ | ⟨_, rfl⟩ | rfl | ⟨hbusy', hstatus⟩ | ⟨_, hbusy', hstatus⟩ := h
  · obtain rfl | rfl := hr <;> exact statusOk_finish s nofun
  · exact statusOk_finish s nofun
  · exact statusOk_finish _ nofun
  · exact hkept hbusy' hstatus
  · exact hkept hbusy' hstatus

theorem statusOk_accept (s : State) (w : Word) : StatusOk (s.accept w) :=
  ⟨fun _ => ⟨rfl, rfl⟩, nofun, fun _ => rfl⟩

/-! ### From the promise to the outcome -/

/-- What the running command comes to: FINISH, with its verdict and its promise. -/
theorem runCommand_spec {s : State} (hs : EngineOk s) (hstatus : StatusOk s) (hbusy : s.phase ≠ .idle) :
    ∃ u, runCommand s = .next u ∧ u.phase = .idle ∧ u.done = true ∧ StatusOk u ∧ u.result = s.verdict
      ∧ (if u.result = .ok then some u.output else none) = s.promise := by
  obtain ⟨u, hrun, hidle, hresult⟩ := runCommand_reaches_verdict hs hbusy
  obtain ⟨_, hstatus', hpromise⟩ := runCommand_invariant (P := fun t => StatusOk t ∧ t.promise = s.promise)
    (fun _ _ ht hb hP hnext =>
      ⟨(engineStep_move hb hnext).statusOk hb hP.1, (engineStep_promise ht hb hnext).trans hP.2⟩)
    hs hbusy ⟨hstatus, rfl⟩ hrun
  refine ⟨u, hrun, hidle, (runCommand_finished hs hbusy hrun hidle).2.1, hstatus', hresult, ?_⟩
  rw [← hpromise, State.promise, hidle]

theorem length_output (u : State) : u.output.length = u.outLen.toNat := by simp [State.output]

/-- Result and promise fix the outcome: OUT_LEN is the output's length, and 0 without one. -/
theorem outcome_eq {u v : State} (hu : StatusOk u) (hv : StatusOk v) (hresult : u.result = v.result)
    (houtput : (if u.result = .ok then some u.output else none) = (if v.result = .ok then some v.output else none)) :
    u.outcome = v.outcome := by
  have hkey : u.outLen = v.outLen ∧ u.output = v.output := by
    by_cases hok : u.result = .ok
    · rw [if_pos hok, if_pos (hresult ▸ hok), Option.some.injEq] at houtput
      exact ⟨BitVec.eq_of_toNat_eq (by rw [← length_output, ← length_output, houtput]), houtput⟩
    · obtain ⟨_, _, hu0⟩ := hu
      obtain ⟨_, _, hv0⟩ := hv
      have hu0 := hu0 hok
      have hv0 := hv0 (hresult ▸ hok)
      exact ⟨hu0.trans hv0.symm, by simp [State.output, hu0, hv0]⟩
  rw [State.outcome, State.outcome, hresult, hkey.1, hkey.2]

/-- Two running commands bound for the same result with the same promise have the same outcome. -/
theorem runCommand_outcome_eq {s t : State} (hs : EngineOk s) (ht : EngineOk t) (hsStatus : StatusOk s)
    (htStatus : StatusOk t) (hsBusy : s.phase ≠ .idle) (htBusy : t.phase ≠ .idle) (hverdict : s.verdict = t.verdict)
    (hpromise : s.promise = t.promise) :
    ∃ u v, runCommand s = .next u ∧ runCommand t = .next v ∧ u.outcome = v.outcome := by
  obtain ⟨u, hu, _, _, huStatus, huResult, huOutput⟩ := runCommand_spec hs hsStatus hsBusy
  obtain ⟨v, hv, _, _, hvStatus, hvResult, hvOutput⟩ := runCommand_spec ht htStatus htBusy
  exact ⟨u, v, hu, hv, outcome_eq huStatus hvStatus (huResult.trans (hverdict.trans hvResult.symm))
    (huOutput.trans (hpromise.trans hvOutput.symm))⟩

/-! ### The active range along a DECODE (41_decode.md R92, R100) -/

/-- The active length a running DECODE will settle on, by phase; from D_WALK on it is AEND. -/
def State.rangeEnd (s : State) (pad : Bool) : Nat :=
  match s.phase with
  | .check => activeLength s.input pad
  | .dStrip => stripPads s.input (6 - s.nstrip.toNat) s.aend.toNat
  | _ => s.aend.toNat

/-- A DECODE whose input passes the contract and the length check (R91). -/
def DecodeLegal (pad : Bool) (s : State) : Prop :=
  decodeCmd s.lCmd = .command (.decode pad) ∧ s.lLen.toNat ≤ s.cfg.ibufDepth ∧ (pad = true → s.lLen.toNat % 8 = 0)

theorem EngineKeeps.decodeLegal {s t : State} {pad : Bool} (h : EngineKeeps s t) (hs : DecodeLegal pad s) :
    DecodeLegal pad t := by
  obtain ⟨hcfg, hword, hlen, _⟩ := h
  rwa [DecodeLegal, hword, hlen, hcfg]

theorem rangeEnd_of_walk {s : State} {pad : Bool} (hcheck : s.phase ≠ .check) (hstrip : s.phase ≠ .dStrip) :
    s.rangeEnd pad = s.aend.toNat := by
  rw [State.rangeEnd]
  split
  · exact absurd ‹_› hcheck
  · exact absurd ‹_› hstrip
  · rfl

theorem phase_of_decode {s : State} {pad : Bool} (hs : EngineOk s) (hcmd : decodeCmd s.lCmd = .command (.decode pad))
    (hbusy : s.phase ≠ .idle) :
    s.phase = .check ∨ s.phase = .dStrip ∨ s.phase = .dWalk ∨ s.phase = .dResid := by
  obtain ⟨_, _, _, hph⟩ := hs
  rw [PhaseOk] at hph
  cases hphase : s.phase <;> rw [hphase] at hph <;> simp_all [Encoding]

theorem check_rangeEnd {s t : State} {pad : Bool} (hphase : s.phase = .check) (hlegal : DecodeLegal pad s)
    (hstrip : s.nstrip = 0) (h : engineStep s = .next t) : t.rangeEnd pad = activeLength s.input pad := by
  obtain ⟨hcmd, hlen, hmod⟩ := hlegal
  have ht := Host.Outcome.next.inj (h.symm.trans (checkJudgesTheCommand s hphase))
  have hok : ¬ (pad = true ∧ s.lLen.toNat % 8 ≠ 0) := fun ⟨hpad, hbad⟩ => hbad (hmod hpad)
  rw [hcmd] at ht
  dsimp only at ht
  rw [if_neg (by omega), if_neg hok] at ht
  rw [ht, activeLength, s.length_input]
  cases pad with
  | true =>
    rw [State.rangeEnd, hstrip]
    rfl
  | false => rfl

theorem dStrip_rangeEnd {s t : State} {pad : Bool} (hs : EngineOk s) (hphase : s.phase = .dStrip)
    (h : engineStep s = .next t) :
    t.rangeEnd pad = stripPads s.input (6 - s.nstrip.toNat) s.aend.toNat := by
  obtain ⟨_, _, _, hph⟩ := hs
  rw [PhaseOk, hphase] at hph
  obtain ⟨⟨_, _, hlen, hrange, _⟩, _⟩ := hph
  rw [engineStep_dStrip hphase] at h
  obtain ⟨hn, he, hread, rfl⟩ | ⟨hstop, rfl⟩ := stepDStrip_next h
  · obtain ⟨_, hc⟩ := engineRead_eq_some.mp hread
    have haend : (s.aend - 1).toNat = s.aend.toNat - 1 := by bv_omega
    have hstrip : (s.nstrip + 1).toNat = s.nstrip.toNat + 1 := by bv_omega
    rw [s.stripPads_round hn he (by omega), if_pos hc]
    simp only [State.rangeEnd, hphase, haend, hstrip]
    rfl
  · rw [s.stripPads_of_stop (by omega) hlen hstop]
    rfl

theorem dWalk_rangeEnd {s t : State} {pad : Bool} (hs : EngineOk s) (hphase : s.phase = .dWalk)
    (h : engineStep s = .next t) : t.rangeEnd pad = s.aend.toNat := by
  obtain ⟨hcfg, _⟩ := hs
  rw [engineStep_dWalk hphase] at h
  obtain ⟨_, rfl⟩ | ⟨_, _, _, ⟨_, rfl⟩ | ⟨_, _, h⟩⟩ := stepDWalk_next h
  · rfl
  · rfl
  · obtain ⟨_, _, hphase', _, haend⟩ := acceptSymbol_written hcfg h
    rw [rangeEnd_of_walk (by simp [hphase', hphase]) (by simp [hphase', hphase]), haend]

theorem dResid_rangeEnd {s t : State} {pad : Bool} (hphase : s.phase = .dResid) (h : engineStep s = .next t) :
    t.rangeEnd pad = s.aend.toNat := by
  rw [engineStep_dResid hphase] at h
  obtain ⟨_, rfl⟩ | ⟨_, rfl⟩ := stepDResid_next h <;> rfl

/-- Every engine step of a legal DECODE keeps the active length it settles on. -/
theorem engineStep_rangeEnd {s t : State} {pad : Bool} (hs : EngineOk s) (hbusy : s.phase ≠ .idle)
    (hlegal : DecodeLegal pad s) (h : engineStep s = .next t) : t.rangeEnd pad = s.rangeEnd pad := by
  have ⟨_, _, _, hph⟩ := hs
  rw [PhaseOk] at hph
  obtain hphase | hphase | hphase | hphase := phase_of_decode hs hlegal.1 hbusy
  · rw [hphase] at hph
    obtain ⟨_, _, _, _, hstrip, _⟩ := hph
    exact (check_rangeEnd hphase hlegal hstrip h).trans (by rw [State.rangeEnd, hphase])
  · exact (dStrip_rangeEnd hs hphase h).trans (by rw [State.rangeEnd, hphase])
  · exact (dWalk_rangeEnd hs hphase h).trans (by rw [State.rangeEnd, hphase])
  · exact (dResid_rangeEnd hphase h).trans (by rw [State.rangeEnd, hphase])

/-- After a legal DECODE, AEND is the active length of its input. -/
theorem runCommand_aend {s u : State} {pad : Bool} (hs : EngineOk s) (hphase : s.phase = .check)
    (hlegal : DecodeLegal pad s) (h : runCommand s = .next u) (hidle : u.phase = .idle) :
    u.aend.toNat = activeLength s.input pad := by
  have hbusy : s.phase ≠ .idle := by simp [hphase]
  obtain ⟨_, _, hend⟩ := runCommand_invariant
    (P := fun t => DecodeLegal pad t ∧ t.rangeEnd pad = activeLength s.input pad)
    (fun _ _ ht hb hP hnext => ⟨(engineStepOf_keeps hnext).decodeLegal hP.1,
      (engineStep_rangeEnd ht hb hP.1 hnext).trans hP.2⟩)
    hs hbusy ⟨hlegal, by rw [State.rangeEnd, hphase]⟩ h
  rw [← hend, rangeEnd_of_walk (by simp [hidle]) (by simp [hidle])]

/-! ### The statements -/

/-- An accepted command under R150's premises: what the engine needs, and the command's word and input. -/
theorem accept_ready {s : State} {t : List Byte} (h : Launchable s t) (i : Instr) :
    EngineOk (s.accept (encode i)) ∧ (s.accept (encode i)).input = t
      ∧ (s.accept (encode i)).lLen.toNat = t.length ∧ t.length ≤ s.cfg.ibufDepth := by
  obtain ⟨_, hloaded, hcfg, hlen⟩ := h
  exact ⟨engineOk_accept hcfg _, input_accept hloaded _, hloaded.1, hlen⟩

/-- Settles O30: the accepted ENCODE is bound for OK and has promised EncodeFn of its input. -/
theorem encodeCommandComputesEncodeFn : Obligations.EncodeCommandComputesEncodeFn := by
  intro s b pad hlaunch
  obtain ⟨hok, hinput, _, hlen⟩ := accept_ready hlaunch (.encode pad)
  obtain ⟨u, hrun, hidle, hdone, _, _, houtput⟩ := runCommand_spec hok (statusOk_accept s _) nofun
  have hpromise : (s.accept (encode (.encode pad))).promise = some (encodeFn b pad) := by
    rw [← hinput] at hlen ⊢
    exact commandFn_encode (decodeCmd_encode _) hlen
  rw [hpromise, Option.ite_none_right_eq_some, Option.some.injEq] at houtput
  obtain ⟨hresult, houtput⟩ := houtput
  exact ⟨u, (runCommand_eq_exec (decodeCmd_encode _)).symm.trans hrun, hidle, hdone, hresult,
    by rw [← houtput, length_output], houtput⟩

/-- Where DecodeFn gives no value, NOVALUE is the first cause, whichever of R126's it is. -/
theorem firstCause_of_decodeFn_eq_none {depth : Nat} {w : Word} {t : List Byte} {pad : Bool}
    (hcmd : decodeCmd w = .command (.decode pad)) (hlen : t.length ≤ depth) (hfn : decodeFn t pad = none) :
    firstCause depth w t = .novalue := by
  rw [firstCause, hcmd]
  simp only [if_neg (Nat.not_lt.mpr hlen), hfn, if_true, ite_self]

/-- Settles O29: the accepted DECODE has promised DecodeFn of its input, and is bound for NOVALUE without a value. -/
theorem decodeCommandComputesDecodeFn : Obligations.DecodeCommandComputesDecodeFn := by
  intro s t pad hlaunch
  obtain ⟨hok, hinput, hlLen, hlen⟩ := accept_ready hlaunch (.decode pad)
  obtain ⟨u, hrun, hidle, hdone, hstatus, hresult, houtput⟩ := runCommand_spec hok (statusOk_accept s _) nofun
  have hpromise : (s.accept (encode (.decode pad))).promise = decodeFn t pad := by
    rw [← hinput] at hlen ⊢
    exact commandFn_decode (decodeCmd_encode _) hlen
  have haend : (pad = true → t.length % 8 = 0) → u.aend.toNat = activeLength t pad := by
    intro hmod
    rw [← hinput]
    exact runCommand_aend hok rfl ⟨decodeCmd_encode _, hlLen.trans_le hlen, hlLen ▸ hmod⟩ hrun hidle
  refine ⟨u, (runCommand_eq_exec (decodeCmd_encode _)).symm.trans hrun, hidle, hdone, haend, ?_⟩
  rw [hpromise] at houtput
  cases hfn : decodeFn t pad with
  | some out =>
    rw [hfn, Option.ite_none_right_eq_some, Option.some.injEq] at houtput
    obtain ⟨hresultOk, houtput⟩ := houtput
    obtain ⟨hmod, _⟩ := (decodingIsTheBitStreamInBytes t out pad).mp hfn
    have houtLen : u.outLen.toNat = out.length := by rw [← houtput, length_output]
    exact ⟨hresultOk, houtLen, houtput, by rw [houtLen, decodedLengthLaw t out pad hfn, haend hmod]⟩
  | none =>
    have hnovalue : u.result = .novalue := by
      rw [hresult, State.verdict, State.accept_phase]
      dsimp only
      rw [hinput]
      exact firstCause_of_decodeFn_eq_none (decodeCmd_encode _) hlen hfn
    obtain ⟨_, _, hzero⟩ := hstatus
    exact ⟨hnovalue, hzero (by simp [hnovalue])⟩

end Sys2Proof.Machine
end


section
/-! Host turns beside a running command (10_state.md R23, R64, R133): O52, O53; and what a step of any kind keeps: O55,
O57, O58. -/
namespace Sys2Proof.Machine

/-! ### A host turn while BUSY -/

/-- The block `s` with the DROP and the outside world of `t`. -/
def State.withOutside (s t : State) : State :=
  { s with drop := t.drop, hRdata := t.hRdata, draws := t.draws, script := t.script, reads := t.reads }

/-- R23, R63: while BUSY a host turn touches DROP and the outside world alone. -/
theorem hostTurn_of_busy {s : State} (hbusy : s.phase ≠ .idle) : hostTurn s = s.withOutside (hostTurn s) := by
  obtain e | ⟨t, ops, e⟩ := hostTurn_cases s <;> rw [e]
  · rfl
  · obtain e | e := transact_cases t s <;> rw [e]
    · obtain e | ⟨_, e⟩ | ⟨hidle, _⟩ | ⟨hidle, _⟩ | ⟨hidle, _⟩ := hostWrite_cases t.addr t.wdata s
      · rw [e]
        rfl
      · rw [e]
        rfl
      · exact absurd hidle hbusy
      · exact absurd hidle hbusy
      · exact absurd hidle hbusy
    · rfl

/-- The engine reads none of what such a turn touches. -/
theorem withOutside_engine (s t : State) :
    (EngineOk (s.withOutside t) ↔ EngineOk s) ∧ (s.withOutside t).verdict = s.verdict
      ∧ (s.withOutside t).promise = s.promise :=
  ⟨Iff.rfl, rfl, rfl⟩

theorem statusOk_withOutside {s : State} (hbusy : s.phase ≠ .idle) (hs : StatusOk s) (t : State) :
    StatusOk (s.withOutside t) := by
  obtain ⟨hrunning, _, houtLen⟩ := hs
  exact ⟨hrunning, fun hidle => absurd hidle hbusy, houtLen⟩

/-- Settles O53: the host turn's DROP is the only part of the block it may change. -/
theorem hostTurnWhileBusyTouchesOnlyDrop : Obligations.HostTurnWhileBusyTouchesOnlyDrop := by
  intro s hbusy
  exact (congrArg State.block (hostTurn_of_busy hbusy)).trans rfl

theorem Inv.statusOk {s : State} (h : Inv s) : StatusOk s := by
  obtain ⟨_, _, _, hstatus, _⟩ := h
  exact hstatus

/-- Settles O52: at CHECK the verdict and the promise are functions of the word, the depth and the input; and a host
turn reaches neither. -/
theorem resultDependsOnTheInputAlone : Obligations.ResultDependsOnTheInputAlone := by
  constructor
  · intro s t hs ht hsPhase htPhase hcfg hword _ hinput
    refine runCommand_outcome_eq hs.engineOk ht.engineOk hs.statusOk ht.statusOk (by simp [hsPhase]) (by simp [htPhase])
      ?_ ?_
    · simp only [State.verdict, hsPhase, htPhase, hcfg, hword, hinput]
    · simp only [State.promise, hsPhase, htPhase, hcfg, hword, hinput]
  · intro s hs hbusy
    obtain ⟨hok, hverdict, hpromise⟩ := withOutside_engine s (hostTurn s)
    rw [hostTurn_of_busy hbusy]
    exact runCommand_outcome_eq hs.engineOk (hok.mpr hs.engineOk) hs.statusOk
      (statusOk_withOutside hbusy hs.statusOk _) hbusy hbusy hverdict.symm hpromise.symm

/-! ### What a step keeps -/

theorem engineStep_idle {s : State} (h : s.phase = .idle) : engineStep s = .next s := by
  simp [engineStep, engineStepOf, h]

/-- A turn of the engine: one step, or with no turns listed the whole of a running command. -/
def EngineTurn (s u : State) : Prop :=
  (∃ r, s.turns = .engine :: r ∧ engineStep (s.withTurns r) = .next u)
    ∨ (s.turns = [] ∧ s.phase ≠ .idle ∧ runCommand s = .next u)

theorem EngineTurn.head {s u : State} (h : EngineTurn s u) : s.turns.head? ≠ some .host := by
  obtain ⟨r, e, _⟩ | ⟨e, _⟩ := h <;> simp [e]

/-- What the engine keeps, its turn keeps. -/
theorem EngineTurn.keeps {s u : State} (h : EngineTurn s u) :
    u.cfg = s.cfg ∧ u.lCmd = s.lCmd ∧ u.lLen = s.lLen ∧ u.ibuf = s.ibuf ∧ u.inLen = s.inLen ∧ u.drop = s.drop
      ∧ u.resets = s.resets := by
  obtain ⟨r, _, hnext⟩ | ⟨_, _, hrun⟩ := h
  · obtain ⟨hcfg, hword, hlen, hibuf, hinLen, hdrop, _, hresets, _⟩ := engineStepOf_keeps hnext
    exact ⟨hcfg, hword, hlen, hibuf, hinLen, hdrop, hresets⟩
  · obtain ⟨hcfg, hword, hlen, hibuf, hinLen, hdrop, _, hresets, _⟩ := runCommand_keeps hrun
    exact ⟨hcfg, hword, hlen, hibuf, hinLen, hdrop, hresets⟩

/-- On an idle block the engine does nothing (R30). -/
theorem EngineTurn.obuf_of_idle {s u : State} (h : EngineTurn s u) (hidle : s.phase = .idle) : u.obuf = s.obuf := by
  obtain ⟨r, _, hnext⟩ | ⟨_, hbusy, _⟩ := h
  · rw [engineStep_idle (s := s.withTurns r) hidle] at hnext
    exact Host.Outcome.next.inj hnext ▸ rfl
  · exact absurd hidle hbusy

/-- A host turn of the machine: the next of the list, or, with none listed, that of an idle block. -/
def HostTurn (s u : State) : Prop :=
  ∃ r, u = hostTurn (s.withTurns r) ∧ (s.turns = .host :: r ∨ (s.turns = [] ∧ r = [] ∧ s.phase = .idle))

/-- A step is a host turn, an engine turn or a reset. -/
theorem step_kinds {s u : State} (h : step s = .next u) :
    HostTurn s u ∨ EngineTurn s u ∨ ∃ r, s.turns = .reset :: r ∧ u = State.resetEdge (s.withTurns r) := by
  obtain ⟨r, e, rfl⟩ | ⟨r, e, hnext⟩ | ⟨r, e, rfl⟩ | ⟨e, hbusy, hrun⟩ | ⟨e, hidle, rfl⟩ := step_cases h
  · exact .inl ⟨r, rfl, .inl e⟩
  · exact .inr (.inl (.inl ⟨r, e, hnext⟩))
  · exact .inr (.inr ⟨r, e, rfl⟩)
  · exact .inr (.inl (.inr ⟨e, hbusy, hrun⟩))
  · have hsame : s.withTurns [] = s := by rw [State.withTurns, ← e]
    exact .inl ⟨[], by rw [hsame], .inr ⟨e, rfl, hidle⟩⟩

theorem HostTurn.keeps {s u : State} (h : HostTurn s u) :
    u.cfg = s.cfg ∧ u.resets = s.resets ∧ u.obuf = s.obuf
      ∧ (s.phase ≠ .idle → u.ibuf = s.ibuf ∧ u.inLen = s.inLen ∧ u.lCmd = s.lCmd ∧ u.lLen = s.lLen) := by
  obtain ⟨r, rfl, _⟩ := h
  exact hostTurn_keeps (s.withTurns r)

/-- A host write sets DROP only while BUSY and clears it only by an accept (R22, R23). -/
theorem hostWrite_drop (a v : Word) (s : State) :
    (hostWrite a v s).drop = s.drop ∨ (s.phase ≠ .idle ∧ (hostWrite a v s).drop = true)
      ∨ (s.phase = .idle ∧ (hostWrite a v s).phase = .check ∧ (hostWrite a v s).drop = false) := by
  obtain e | ⟨hbusy, e⟩ | ⟨hidle, _, e⟩ | ⟨_, _, e⟩ | ⟨_, _, _, e⟩ := hostWrite_cases a v s
  · exact .inl (by rw [e])
  · exact .inr (.inl ⟨hbusy, by rw [e]; rfl⟩)
  · exact .inr (.inr ⟨hidle, by rw [e]; rfl, by rw [e]; rfl⟩)
  · exact .inl (by rw [e]; rfl)
  · exact .inl (by rw [e]; rfl)

theorem hostTurn_drop (s : State) :
    (hostTurn s).drop = s.drop ∨ (s.phase ≠ .idle ∧ (hostTurn s).drop = true)
      ∨ (s.phase = .idle ∧ (hostTurn s).phase = .check ∧ (hostTurn s).drop = false) := by
  obtain e | ⟨t, ops, e⟩ := hostTurn_cases s <;> rw [e]
  · exact .inl rfl
  · obtain e | e := transact_cases t s <;> rw [e]
    · exact hostWrite_drop t.addr t.wdata s
    · exact .inl rfl

/-! ### The statements -/

/-- Settles O55, by the kind of turn. -/
theorem inputIsFrozenWhileBusy : Obligations.InputIsFrozenWhileBusy := by
  intro s u h hbusy hreset
  have hfrozen : u.ibuf = s.ibuf ∧ u.inLen = s.inLen ∧ u.lCmd = s.lCmd ∧ u.lLen = s.lLen ∧ u.resets = s.resets := by
    obtain hhost | hengine | ⟨r, e, _⟩ := step_kinds h
    · obtain ⟨_, hresets, _, hkept⟩ := hhost.keeps
      obtain ⟨hibuf, hinLen, hword, hlen⟩ := hkept hbusy
      exact ⟨hibuf, hinLen, hword, hlen, hresets⟩
    · obtain ⟨_, hword, hlen, hibuf, hinLen, _, hresets⟩ := hengine.keeps
      exact ⟨hibuf, hinLen, hword, hlen, hresets⟩
    · exact absurd (by rw [e]; rfl) hreset
  obtain ⟨hibuf, hinLen, hword, hlen, hresets⟩ := hfrozen
  exact ⟨hibuf, fun j => by rw [State.ibufByte, State.ibufByte, hibuf, hresets], hinLen, hword, hlen, hresets⟩

/-- Settles O57: only a host turn or a reset moves DROP. -/
theorem dropIsSetOnlyByTheHostWhileBusy : Obligations.DropIsSetOnlyByTheHostWhileBusy := by
  intro s u h
  obtain ⟨r, rfl, hr⟩ | hengine | ⟨r, e, rfl⟩ := step_kinds h
  · obtain hkept | ⟨hbusy, hset⟩ | ⟨hidle, hcheck, hclear⟩ := hostTurn_drop (s.withTurns r)
    · rw [hkept]
      exact ⟨fun h0 h1 => absurd (h0.symm.trans h1) nofun, fun h1 h0 => absurd (h1.symm.trans h0) nofun⟩
    · obtain e | ⟨_, _, hidle⟩ := hr
      · exact ⟨fun _ _ => ⟨hbusy, by rw [e]; rfl⟩, fun _ h0 => absurd (hset.symm.trans h0) nofun⟩
      · exact absurd hidle hbusy
    · exact ⟨fun _ h1 => absurd (hclear.symm.trans h1) nofun, fun _ _ => .inr ⟨hidle, hcheck⟩⟩
  · obtain ⟨_, _, _, _, _, hdrop, _⟩ := hengine.keeps
    rw [hdrop]
    exact ⟨fun h0 h1 => absurd (h0.symm.trans h1) nofun, fun h1 h0 => absurd (h1.symm.trans h0) nofun⟩
  · exact ⟨fun _ h1 => absurd h1 nofun, fun _ _ => .inl (by rw [e]; rfl)⟩

/-- Settles O58: a host turn writes no OBUF entry, and an engine step of an idle block does nothing. -/
theorem onlyTheEngineWritesObuf : Obligations.OnlyTheEngineWritesObuf := by
  intro s u h
  have hchange : u.obuf = s.obuf → u.resets = s.resets →
      ¬ (u.obuf ≠ s.obuf ∨ ∃ j, u.obufByte j ≠ s.obufByte j) := by
    rintro hobuf hresets (hne | ⟨j, hne⟩)
    · exact hne hobuf
    · exact hne (obufByte_congr hobuf hresets j)
  obtain hhost | hengine | ⟨r, e, rfl⟩ := step_kinds h
  · obtain ⟨hcfg, hresets, hobuf, _⟩ := hhost.keeps
    exact ⟨hcfg, fun _ => hresets, fun hne => absurd hne (hchange hobuf hresets)⟩
  · obtain ⟨hcfg, _, _, _, _, _, hresets⟩ := hengine.keeps
    refine ⟨hcfg, fun _ => hresets, fun hne => .inr ⟨fun hidle => ?_, hengine.head⟩⟩
    exact hchange (hengine.obuf_of_idle hidle) hresets hne
  · exact ⟨rfl, fun hne => absurd (by rw [e]; rfl) hne, fun _ => .inl (by rw [e]; rfl)⟩

end Sys2Proof.Machine
end


section
/-! The invariant: every kind of turn keeps it, and none faults under it (10_state.md R21, R30; 40_bitpool.md R81): O24,
O47, O48, O49. -/
namespace Sys2Proof.Machine

theorem inv_iff {s : State} : Inv s ↔ EngineOk s ∧ BuffersOk s ∧ StatusOk s :=
  ⟨fun ⟨hcfg, hbuf, hpool, hstatus, hnstrip, hph⟩ => ⟨⟨hcfg, hpool, hnstrip, hph⟩, hbuf, hstatus⟩,
    fun ⟨⟨hcfg, hpool, hnstrip, hph⟩, hbuf, hstatus⟩ => ⟨hcfg, hbuf, hpool, hstatus, hnstrip, hph⟩⟩

/-! ### Engine turns -/

/-- Every move of the engine keeps the buffers canonical and within their depths. -/
theorem EngineMove.buffersOk {s t : State} (h : EngineMove s t) (hkeeps : EngineKeeps s t) (hs : BuffersOk s) :
    BuffersOk t := by
  obtain ⟨hcfg, _, _, hibuf, _⟩ := hkeeps
  obtain ⟨hiwf, hibelow, howf, hobelow⟩ := hs
  suffices hobuf : t.obuf.wf = true ∧ t.obuf.below s.cfg.obufDepth = true by
    rw [BuffersOk, hibuf, hcfg]
    exact ⟨hiwf, hibelow, hobuf⟩
  obtain ⟨r, hr, _, rfl⟩ | ⟨_, rfl⟩ | rfl | ⟨_, _, hobuf, _⟩ | ⟨b, _, _, hroom, hobuf, _⟩ := h
  · obtain rfl | rfl := hr <;> exact ⟨howf, hobelow⟩
  · exact ⟨Memory.redraw_wf howf, Memory.redraw_below (Nat.min_le_right _ _) hobelow⟩
  · exact ⟨howf, hobelow⟩
  · rw [hobuf]
    exact ⟨howf, hobelow⟩
  · rw [hobuf]
    exact ⟨Memory.store_wf howf, Memory.store_below hroom hobelow⟩

theorem engineStep_inv {s u : State} (hs : Inv s) (h : engineStep s = .next u) : Inv u := by
  by_cases hidle : s.phase = .idle
  · rw [engineStep_idle hidle] at h
    exact Host.Outcome.next.inj h ▸ hs
  · obtain ⟨hok, hbuf, hstatus⟩ := inv_iff.mp hs
    obtain ⟨t, hadv, hok', _⟩ := engineStep_advances hok hidle
    obtain rfl : u = t := Host.Outcome.next.inj (h.symm.trans hadv)
    have hmove := engineStep_move hidle h
    exact inv_iff.mpr ⟨hok', hmove.buffersOk (engineStepOf_keeps h) hbuf, hmove.statusOk hidle hstatus⟩

theorem runCommand_inv {s u : State} (hs : Inv s) (hbusy : s.phase ≠ .idle) (h : runCommand s = .next u) : Inv u :=
  (runCommand_invariant (P := Inv) (fun _ _ _ _ ht hnext => engineStep_inv ht hnext) hs.engineOk hbusy hs h).2

/-! ### Host turns and resets -/

/-- The invariant speaks of the block alone, and of DROP only while IDLE. -/
theorem inv_withOutside {s : State} (hbusy : s.phase ≠ .idle) (hs : Inv s) (t : State) : Inv (s.withOutside t) := by
  obtain ⟨hok, hbuf, hstatus⟩ := inv_iff.mp hs
  exact inv_iff.mpr ⟨hok, hbuf, statusOk_withOutside hbusy hstatus t⟩

theorem inv_accept {s : State} (hs : Inv s) (w : Word) : Inv (s.accept w) := by
  obtain ⟨⟨hcfg, _⟩, hbuf, _⟩ := inv_iff.mp hs
  exact inv_iff.mpr ⟨engineOk_accept hcfg w, hbuf, statusOk_accept s w⟩

theorem hostWrite_inv_of_idle {s : State} (hidle : s.phase = .idle) (hs : Inv s) (a v : Word) :
    Inv (hostWrite a v s) := by
  have ⟨hcfg, ⟨hiwf, hibelow, hobuf⟩, hpool, hstatus, hnstrip, hph⟩ := hs
  obtain e | ⟨hbusy, _⟩ | ⟨_, _, e⟩ | ⟨_, _, e⟩ | ⟨_, i, ha, e⟩ := hostWrite_cases a v s
  · rw [e]
    exact hs
  · exact absurd hidle hbusy
  · rw [e]
    exact inv_accept hs v
  · rw [e]
    refine ⟨hcfg, ⟨hiwf, hibelow, hobuf⟩, hpool, hstatus, hnstrip, ?_⟩
    simp [PhaseOk, hidle]
  · rw [e]
    refine ⟨hcfg, ⟨Memory.store_wf hiwf, Memory.store_below (target_ibuf_lt ha) hibelow, hobuf⟩, hpool, hstatus,
      hnstrip, ?_⟩
    simp [PhaseOk, hidle]

theorem hostTurn_inv {s : State} (hs : Inv s) : Inv (hostTurn s) := by
  by_cases hidle : s.phase = .idle
  · obtain e | ⟨t, ops, e⟩ := hostTurn_cases s <;> rw [e]
    · exact hs
    · obtain e | e := transact_cases t s <;> rw [e]
      · exact hostWrite_inv_of_idle hidle hs t.addr t.wdata
      · exact hs
  · rw [hostTurn_of_busy hidle]
    exact inv_withOutside hidle hs _

theorem resetEdge_inv {s : State} (hcfg : s.cfg.wf = true) : Inv s.resetEdge :=
  ⟨hcfg, ⟨rfl, rfl, rfl, rfl⟩, Pool.empty_ok, ⟨nofun, fun _ => .inl ⟨rfl, rfl, rfl⟩, fun _ => rfl⟩, Nat.zero_le _,
    trivial⟩

/-! ### The statements -/

/-- Settles O47: the reset state is its own reset edge, but for the number of the draw. -/
theorem resetStateMeetsTheInvariant : Obligations.ResetStateMeetsTheInvariant :=
  resetEdge_inv (s := State.reset) (by decide)

/-- Settles O48, by the kind of turn. -/
theorem everyStepKeepsTheInvariant : Obligations.EveryStepKeepsTheInvariant := by
  intro s u hs h
  obtain ⟨r, rfl, _⟩ | (⟨r, _, hnext⟩ | ⟨_, hbusy, hrun⟩) | ⟨r, _, rfl⟩ := step_kinds h
  · exact hostTurn_inv (s := s.withTurns r) hs
  · exact engineStep_inv (s := s.withTurns r) hs hnext
  · exact runCommand_inv hs hbusy hrun
  · exact resetEdge_inv (s := s.withTurns r) hs.1

theorem engineStep_total {s : State} (hs : Inv s) : ∃ u, engineStep s = .next u := by
  by_cases hidle : s.phase = .idle
  · exact ⟨s, engineStep_idle hidle⟩
  · obtain ⟨t, hnext, _⟩ := engineStep_advances hs.engineOk hidle
    exact ⟨t, hnext⟩

/-- Settles O49: a host turn and a reset cannot fault, and the engine advances. -/
theorem noStepFaultsUnderTheInvariant : Obligations.NoStepFaultsUnderTheInvariant := by
  intro s hs
  rw [step, guarded, if_pos hs.1, takeTurn]
  split
  · exact ⟨_, rfl⟩
  · next r _ => exact engineStep_total (s := s.withTurns r) hs
  · exact ⟨_, rfl⟩
  · split
    · next hbusy =>
      obtain ⟨u, hrun, _⟩ := runCommand_reaches_verdict hs.engineOk (busy_iff.mp hbusy)
      exact ⟨u, hrun⟩
    · exact ⟨_, rfl⟩

/-- Settles O24: the character before AEND lies in IBUF, so R100's test is the whole step. -/
theorem stripStepTakesOnePadSymbol : Obligations.StripStepTakesOnePadSymbol := by
  intro s hs hphase
  obtain ⟨t, hnext⟩ := engineStep_total hs
  have h := hnext
  rw [engineStep_dStrip hphase] at h
  obtain ⟨hn, he, hread, rfl⟩ | ⟨hstop, rfl⟩ := stepDStrip_next h
  · rw [hnext, if_pos ⟨hn, he, (engineRead_eq_some.mp hread).2⟩]
  · obtain ⟨_, _, _, _, _, hph⟩ := hs
    rw [PhaseOk, hphase] at hph
    obtain ⟨⟨_, _, hlen, hrange, _⟩, _⟩ := hph
    rw [hnext, if_neg fun ⟨hn, he, hc⟩ => hstop ⟨hn, he, engineRead_eq_some.mpr ⟨by omega, hc⟩⟩]

end Sys2Proof.Machine
end


section
/-! The frame of both commands on OBUF (20_memory.md R52, 70_reset_and_hazards.md R141): O23, O34. -/
namespace Sys2Proof.Machine

/-- R141: FINISH(NOVALUE) keeps the entries at and beyond floor(5·L/8). -/
theorem obufByte_finish_novalue (s : State) {j : Nat} (h : 5 * s.lLen.toNat / 8 ≤ j) :
    (s.finish .novalue).obufByte j = s.obufByte j := by
  have hkept : s.spoiledObuf.stored j = s.obuf.stored j :=
    Memory.stored_redraw_ge _ _ ((Nat.min_le_left _ _).trans h)
  rw [State.obufByte, State.obufByte, ← hkept]
  rfl

/-- Settles O23: the record update of FINISH, and R141's redraw. -/
theorem finishRecordsTheResult : Obligations.FinishRecordsTheResult := by
  refine fun s r => ⟨fun hr => ?_, rfl, fun j => obufByte_finish_novalue s⟩
  simp only [State.finish, State.block, if_neg hr]

/-- What a command started in `s` has left of OBUF in `t`: while it runs, the entries at and beyond OPOS; after FINISH,
by its result. -/
def ObufFrame (s t : State) : Prop :=
  (t.phase ≠ .idle → t.result = .none ∧ ∀ j, t.opos.toNat ≤ j → t.obufByte j = s.obufByte j)
    ∧ (t.result = .ok → ∀ j, t.outLen.toNat ≤ j → t.obufByte j = s.obufByte j)
    ∧ (t.result = .novalue → ∀ j, 5 * s.lLen.toNat / 8 ≤ j → t.obufByte j = s.obufByte j)
    ∧ (t.result = .errLen → ∀ j, t.obufByte j = s.obufByte j)

/-- A running command's frame is the one clause. -/
theorem ObufFrame.of_busy {s t : State} (hresult : t.result = .none)
    (hkept : ∀ j, t.opos.toNat ≤ j → t.obufByte j = s.obufByte j) : ObufFrame s t := by
  refine ⟨fun _ => ⟨hresult, hkept⟩, ?_, ?_, ?_⟩ <;> rw [hresult] <;> exact nofun

/-- R88: wherever NOVALUE can be the result, the bytes written are bits of the input. -/
theorem opos_le_of_novalue {s : State} (hs : EngineOk s)
    (hphase : s.phase = .check ∨ s.phase = .dWalk ∨ s.phase = .dResid) : s.opos.toNat ≤ 5 * s.lLen.toNat / 8 := by
  have hdecoding : Decoding s → s.opos.toNat ≤ 5 * s.lLen.toNat / 8 := by
    rintro ⟨_, _, _, hrange, hle, hcount, _⟩
    omega
  obtain ⟨_, _, _, hph⟩ := hs
  rw [PhaseOk] at hph
  obtain hphase | hphase | hphase := hphase <;> rw [hphase] at hph
  · obtain ⟨_, _, hopos, _⟩ := hph
    simp [hopos]
  · exact hdecoding hph
  · exact hdecoding hph.1

theorem EngineMove.obufFrame {s t u : State} (h : EngineMove t u) (hkeeps : EngineKeeps t u) (ht : EngineOk t)
    (hbusy : t.phase ≠ .idle) (hlen : t.lLen = s.lLen) (hframe : ObufFrame s t) : ObufFrame s u := by
  obtain ⟨hresult, hkept⟩ := hframe.1 hbusy
  obtain ⟨_, _, _, _, _, _, _, hresets, _⟩ := hkeeps
  obtain ⟨r, hr, hphase, rfl⟩ | ⟨hphase, rfl⟩ | rfl | ⟨_, ⟨_, hresult', _⟩, hobuf, hopos⟩ |
    ⟨b, _, ⟨_, hresult', _⟩, hroom, hobuf, hopos⟩ := h
  · obtain ⟨_, _, _, hph⟩ := ht
    rw [PhaseOk, hphase] at hph
    obtain ⟨_, _, hopos, _⟩ := hph
    have hall : ∀ j, t.obufByte j = s.obufByte j := fun j => hkept j (by simp [hopos])
    obtain rfl | rfl := hr
    · exact ⟨fun hne => absurd rfl hne, nofun, nofun, nofun⟩
    · exact ⟨fun hne => absurd rfl hne, nofun, nofun, fun _ => hall⟩
  · refine ⟨fun hne => absurd rfl hne, nofun, fun _ j hj => ?_, nofun⟩
    have hwritten := opos_le_of_novalue ht hphase
    rw [obufByte_finish_novalue t (hlen ▸ hj), hkept j (by rw [hlen] at hwritten; omega)]
  · exact ⟨fun hne => absurd rfl hne, fun _ => hkept, nofun, nofun⟩
  · refine .of_busy (hresult'.trans hresult) fun j hj => ?_
    rw [obufByte_congr hobuf hresets, hkept j (hopos ▸ hj)]
  · refine .of_busy (hresult'.trans hresult) fun j hj => ?_
    rw [hopos, toNat_add_one hroom (Config.depths_le ht.1).2] at hj
    rw [obufByte_of_store_other hobuf hresets (by omega), hkept j (by omega)]

/-- The frame of a running command on OBUF. -/
theorem runCommand_obufFrame {s u : State} (hs : Inv s) (hbusy : s.phase ≠ .idle) (h : runCommand s = .next u) :
    ObufFrame s u := by
  have hstart : ObufFrame s s := .of_busy (hs.statusOk.1 hbusy).2 fun _ _ => rfl
  refine (runCommand_invariant (P := fun t => t.lLen = s.lLen ∧ ObufFrame s t) ?_ hs.engineOk hbusy ⟨rfl, hstart⟩ h).2.2
  rintro t t' ht hb ⟨hlen, hframe⟩ hnext
  have hkeeps : EngineKeeps t t' := engineStepOf_keeps hnext
  have ⟨_, _, hlen', _⟩ := hkeeps
  exact ⟨hlen'.trans hlen, (engineStep_move hb hnext).obufFrame hkeeps ht hb hlen hframe⟩

/-- Settles O34: the engine's frame, and the frame on OBUF. -/
theorem commandFrame : Obligations.CommandFrame := by
  intro s u i h
  have hrun := h
  rw [exec_eq_engineRun] at hrun
  obtain ⟨hcfg, hword, hlen, hibuf, hinLen, hdrop, hpin, hresets, hturns, hscript, hreads⟩ := engineRun_keeps hrun
  refine ⟨⟨hibuf, hinLen, hdrop, hword, hlen, hcfg, hpin, hresets, hturns, hscript, hreads⟩, fun hs hbusy hcmd => ?_⟩
  exact (runCommand_obufFrame hs hbusy ((runCommand_eq_exec hcmd).trans h)).2

end Sys2Proof.Machine
end


section
/-! A step by the turn that comes (O32, O45, O46). Turns and scripts are the outside world's: the engine's steps and the
host's accesses run the same whatever is listed, so a command is its engine turns, and a clock edge its turns (O50,
O51). -/
namespace Sys2Proof.Machine

/-! ### A step by its turn -/

theorem step_eq_takeTurn {s : State} (h : s.cfg.wf = true) : step s = takeTurn s := if_pos h

theorem withTurns_self {s : State} {ts : List Turn} (h : s.turns = ts) : s.withTurns ts = s := by
  rw [State.withTurns, ← h]

theorem step_host {s : State} {r : List Turn} (hcfg : s.cfg.wf = true) (h : s.turns = .host :: r) :
    step s = .next (hostTurn (s.withTurns r)) := by
  rw [step_eq_takeTurn hcfg, takeTurn, h]
  rfl

theorem step_engine {s : State} {r : List Turn} (hcfg : s.cfg.wf = true) (h : s.turns = .engine :: r) :
    step s = engineStep (s.withTurns r) := by
  rw [step_eq_takeTurn hcfg, takeTurn, h]
  rfl

theorem step_reset {s : State} {r : List Turn} (hcfg : s.cfg.wf = true) (h : s.turns = .reset :: r) :
    step s = .next (State.resetEdge (s.withTurns r)) := by
  rw [step_eq_takeTurn hcfg, takeTurn, h]
  rfl

theorem step_command {s : State} (hcfg : s.cfg.wf = true) (h : s.turns = []) (hbusy : s.phase ≠ .idle) :
    step s = runCommand s := by
  rw [step_eq_takeTurn hcfg, takeTurn, h]
  exact if_pos (busy_iff.mpr hbusy)

theorem step_idle {s : State} (hcfg : s.cfg.wf = true) (h : s.turns = []) (hidle : s.phase = .idle) :
    step s = .next (hostTurn s) := by
  rw [step_eq_takeTurn hcfg, takeTurn, h]
  exact if_neg (by simp [State.busy, hidle])

/-- Settles O46, by the four turns. -/
theorem stepRunsTheDecodedCommand : Obligations.StepRunsTheDecodedCommand := by
  refine fun s hcfg => ⟨fun i h hbusy hcmd => ?_, step_idle hcfg, fun r => step_host hcfg, fun r => step_engine hcfg⟩
  rw [step_command hcfg h hbusy, runCommand_eq_exec hcmd]

/-- Settles O32: with no other turn first, the step is the CHECK of an illegal word. -/
theorem illegalWordIsErrCmd : Obligations.IllegalWordIsErrCmd := by
  intro s why hcfg h hphase hcmd
  refine ⟨s.finish .errCmd, ?_, rfl⟩
  rw [step_command hcfg h (by simp [hphase]), runCommand, hcmd]
  dsimp only
  rw [checkJudgesTheCommand s hphase, hcmd]

/-- Settles O45: the unwritten entries of both buffers are the new reset's draw. -/
theorem resetTurnResetsEveryRegister : Obligations.ResetTurnResetsEveryRegister := by
  intro s r hcfg h
  have hstatus : (State.resetEdge (s.withTurns r)).status = 0 := by simp [State.status, State.busy, Result.code]
  exact ⟨_, step_reset hcfg h, rfl, hstatus, rfl, rfl, rfl, rfl, rfl, rfl, rfl, rfl, rfl, rfl, rfl, rfl, rfl, rfl,
    fun _ => ⟨rfl, rfl⟩⟩

/-! ### The engine and the turns -/

/-- The outcome with its next state changed. -/
def mapNext (f : State → State) (o : Out) : Out := andThen o fun s => .next (f s)

@[simp] theorem mapNext_next (f : State → State) (s : State) : mapNext f (.next s) = .next (f s) := rfl

theorem mapNext_ite (f : State → State) (c : Prop) [Decidable c] (a b : Out) :
    mapNext f (if c then a else b) = if c then mapNext f a else mapNext f b := apply_ite (mapNext f) c a b

theorem emit_withTurns (s : State) (b : Byte) (ts : List Turn) :
    State.emit (s.withTurns ts) b = mapNext (·.withTurns ts) (s.emit b) := by
  rw [State.emit, State.emit, mapNext_ite]
  rfl

theorem checkDecode_withTurns (pad : Bool) (s : State) (ts : List Turn) :
    checkDecode pad (s.withTurns ts) = mapNext (·.withTurns ts) (checkDecode pad s) := by
  rw [checkDecode, checkDecode, mapNext_ite]
  rfl

theorem stepCheck_withTurns (c : Decoded) (s : State) (ts : List Turn) :
    stepCheck c (s.withTurns ts) = mapNext (·.withTurns ts) (stepCheck c s) := by
  obtain ⟨pad | pad⟩ | why := c
  · rw [stepCheck, stepCheck, mapNext_ite]
    rfl
  · rw [stepCheck, stepCheck, mapNext_ite, ← checkDecode_withTurns]
    rfl
  · rfl

theorem stepDStrip_withTurns (s : State) (ts : List Turn) :
    stepDStrip (s.withTurns ts) = mapNext (·.withTurns ts) (stepDStrip s) := by
  have hread : (s.withTurns ts).engineRead (s.aend.toNat - 1) = s.engineRead (s.aend.toNat - 1) := rfl
  rw [stepDStrip, stepDStrip, mapNext_ite, State.withTurns_aend, hread]
  cases s.engineRead (s.aend.toNat - 1) with
  | none => rfl
  | some c =>
    rw [mapNext_ite]
    rfl

theorem acceptSymbol_withTurns (v : BitVec 5) (s : State) (ts : List Turn) :
    acceptSymbol v (s.withTurns ts) = mapNext (·.withTurns ts) (acceptSymbol v s) := by
  rw [acceptSymbol, acceptSymbol, mapNext_ite]
  dsimp only
  rw [mapNext_ite, ← emit_withTurns]
  rfl

theorem stepDWalk_withTurns (s : State) (ts : List Turn) :
    stepDWalk (s.withTurns ts) = mapNext (·.withTurns ts) (stepDWalk s) := by
  have hread : (s.withTurns ts).engineRead s.ipos.toNat = s.engineRead s.ipos.toNat := rfl
  rw [stepDWalk, stepDWalk, mapNext_ite, State.withTurns_ipos, hread]
  cases s.engineRead s.ipos.toNat with
  | none => rfl
  | some c =>
    dsimp only
    cases rlut c with
    | none => rfl
    | some v =>
      dsimp only
      rw [← acceptSymbol_withTurns]
      rfl

theorem stepDResid_withTurns (s : State) (ts : List Turn) :
    stepDResid (s.withTurns ts) = mapNext (·.withTurns ts) (stepDResid s) := by
  rw [stepDResid, stepDResid, mapNext_ite]
  rfl

theorem stepEWalk_withTurns (s : State) (ts : List Turn) :
    stepEWalk (s.withTurns ts) = mapNext (·.withTurns ts) (stepEWalk s) := by
  have hread : (s.withTurns ts).engineRead s.ipos.toNat = s.engineRead s.ipos.toNat := rfl
  rw [stepEWalk, stepEWalk, mapNext_ite, State.withTurns_ipos, hread]
  cases s.engineRead s.ipos.toNat with
  | none => rfl
  | some b =>
    dsimp only
    rw [mapNext_ite]
    rfl

theorem stepEEmit_withTurns (s : State) (ts : List Turn) :
    stepEEmit (s.withTurns ts) = mapNext (·.withTurns ts) (stepEEmit s) := by
  rw [stepEEmit, stepEEmit, mapNext_ite, ← emit_withTurns]
  rfl

theorem stepEFlush_withTurns (s : State) (ts : List Turn) :
    stepEFlush (s.withTurns ts) = mapNext (·.withTurns ts) (stepEFlush s) := by
  rw [stepEFlush, stepEFlush, mapNext_ite, mapNext_ite, ← emit_withTurns]
  rfl

theorem stepEPad_withTurns (s : State) (ts : List Turn) :
    stepEPad (s.withTurns ts) = mapNext (·.withTurns ts) (stepEPad s) := by
  rw [stepEPad, stepEPad, mapNext_ite, ← emit_withTurns]
  rfl

/-- An engine step neither reads nor writes the turns. -/
theorem engineStepOf_withTurns (c : Decoded) (s : State) (ts : List Turn) :
    engineStepOf c (s.withTurns ts) = mapNext (·.withTurns ts) (engineStepOf c s) := by
  rw [engineStepOf, engineStepOf, State.withTurns_phase]
  cases s.phase with
  | idle => rfl
  | check => exact stepCheck_withTurns c s ts
  | dStrip => exact stepDStrip_withTurns s ts
  | dWalk => exact stepDWalk_withTurns s ts
  | dResid => exact stepDResid_withTurns s ts
  | eWalk => exact stepEWalk_withTurns s ts
  | eEmit => exact stepEEmit_withTurns s ts
  | eFlush => exact stepEFlush_withTurns s ts
  | ePad => exact stepEPad_withTurns s ts

/-- One step of a run, on an idle block too, where the engine does nothing. -/
theorem engineRun_succ (c : Decoded) (n : Nat) (s : State) :
    engineRun c (n + 1) s = andThen (engineStepOf c s) (engineRun c n) := by
  by_cases hidle : s.phase = .idle
  · rw [engineRun_idle hidle, engineStepOf, hidle, andThen_next, engineRun_idle hidle]
  · exact engineRun_busy hidle

/-- As many engine turns as the bound allows are the run itself. -/
theorem runSteps_engine (n : Nat) {s : State} (hcfg : s.cfg.wf = true) (h : s.turns = []) :
    runSteps n (s.withTurns (List.replicate n .engine)) = engineRun (decodeCmd s.lCmd) n s := by
  induction n generalizing s with
  | zero => rw [List.replicate_zero, withTurns_self h, runSteps, engineRun]
  | succ n ih =>
    have hturn : step (s.withTurns (List.replicate (n + 1) .engine))
        = mapNext (·.withTurns (List.replicate n .engine)) (engineStepOf (decodeCmd s.lCmd) s) := by
      rw [step_engine (s := s.withTurns (List.replicate (n + 1) .engine)) hcfg rfl, ← engineStepOf_withTurns]
      rfl
    rw [runSteps, hturn, engineRun_succ]
    cases hstep : engineStepOf (decodeCmd s.lCmd) s with
    | fault r => rfl
    | refused r => rfl
    | next t =>
      obtain ⟨hcfg', hword, _, _, _, _, _, _, hturns, _⟩ := engineStepOf_keeps hstep
      rw [mapNext_next, andThen_next, andThen_next, ih (hcfg' ▸ hcfg) (hturns.trans h), hword]

/-- Settles O50: the bound's engine turns are a run of as many engine steps, which is what exec is. -/
theorem collapsedCommandIsItsEngineTurns : Obligations.CollapsedCommandIsItsEngineTurns := by
  intro s i hcfg h hcmd
  rw [runSteps_engine _ hcfg h, exec_eq_engineRun, hcmd]

/-! ### The host and the script -/

/-- The state with another list of turns and another script. -/
def State.withScript (s : State) (ts : List Turn) (ops : List HostOp) : State := { s with turns := ts, script := ops }

theorem withScript_self {s : State} (hturns : s.turns = []) (hscript : s.script = []) : s.withScript [] [] = s := by
  rw [State.withScript, ← hturns, ← hscript]

/-- An access neither reads nor writes the turns and the script. -/
theorem hostWrite_withScript (a v : Word) (s : State) (ts : List Turn) (ops : List HostOp) :
    hostWrite a v (s.withScript ts ops) = (hostWrite a v s).withScript ts ops := by
  have hguard : ∀ u : State, (s.withScript ts ops).guardedWrite (u.withScript ts ops)
      = (s.guardedWrite u).withScript ts ops := by
    intro u
    by_cases hidle : s.phase = .idle
    · rw [guardedWrite_of_idle _ hidle, guardedWrite_of_idle (s := s.withScript ts ops) _ hidle]
      rfl
    · rw [guardedWrite_of_busy _ hidle, guardedWrite_of_busy (s := s.withScript ts ops) _ hidle]
      rfl
  have hcfg : (s.withScript ts ops).cfg = s.cfg := rfl
  rw [hostWrite, hostWrite, hcfg]
  cases target s.cfg a with
  | cmd => exact hguard (s.accept v)
  | inLen => exact hguard { s with inLen := v }
  | ibuf i => exact hguard { s with ibuf := s.ibuf.store i (v.extractLsb 7 0) }
  | status => rfl
  | outLen => rfl
  | obuf i => rfl
  | unmapped => rfl

theorem transact_withScript (t : Transaction) (s : State) (ts : List Turn) (ops : List HostOp) :
    transact t (s.withScript ts ops) = (transact t s).withScript ts ops := by
  rw [transact, transact]
  split
  · exact hostWrite_withScript t.addr t.wdata s ts ops
  · rfl

/-- A host turn is the access of the script's next operation and what the operation goes on with. -/
theorem hostTurn_withScript (s : State) (ts : List Turn) (op : HostOp) (ops : List HostOp) :
    hostTurn (s.withScript ts (op :: ops)) =
      (transact (accessOf op) s).withScript ts (continueWith op (hostReadValue (accessOf op).addr s) ++ ops) := by
  change State.withScript (transact (accessOf op) (s.withScript ts (op :: ops)))
    (transact (accessOf op) (s.withScript ts (op :: ops))).turns _ = _
  rw [transact_withScript]
  rfl

theorem step_withScript_host {s : State} (hcfg : s.cfg.wf = true) (ts : List Turn) (ops : List HostOp) :
    step (s.withScript (.host :: ts) ops) = .next (hostTurn (s.withScript ts ops)) :=
  step_host (s := s.withScript (.host :: ts) ops) hcfg rfl

/-! ### One clock edge (70_reset_and_hazards.md R143) -/

theorem andThen_runSteps_zero (o : Out) : andThen o (runSteps 0) = o := by cases o <;> rfl

theorem runSteps_one (s : State) : runSteps 1 s = step s := andThen_runSteps_zero (step s)

/-- The host's access of an edge as a host turn. -/
theorem hostTurn_edge {p : Pins} (hrst : p.rst = false) (hsel : p.hSel = true) (s : State) (ts : List Turn) :
    hostTurn (s.withScript ts (edgeScript p)) = (p.access s).withScript ts [] := by
  rw [edgeScript, Pins.access, if_neg (by simp [hrst, hsel]), if_pos hsel]
  cases hwe : p.hWe with
  | true => exact hostTurn_withScript s ts _ []
  | false => exact hostTurn_withScript s ts _ []

theorem access_cfg (p : Pins) (s : State) : (p.access s).cfg = s.cfg := by
  rw [Pins.access]
  split
  · obtain e | e := transact_cases ⟨p.hWe, p.hAddr, p.hWdata⟩ s <;> rw [e]
    · obtain e | ⟨_, e⟩ | ⟨_, _, e⟩ | ⟨_, _, e⟩ | ⟨_, _, _, e⟩ := hostWrite_cases p.hAddr p.hWdata s <;> rw [e] <;> rfl
    · rfl
  · rfl

theorem access_withScript {s : State} (hturns : s.turns = []) (hscript : s.script = []) (p : Pins) :
    (p.access s).withScript [] [] = p.access s := by
  have hself := withScript_self hturns hscript
  rw [Pins.access]
  split
  · rw [← transact_withScript, hself]
  · exact hself

/-- The engine's part of an edge: its step, if the block was busy when the edge came. -/
theorem runSteps_edge_engine {s : State} (hcfg : s.cfg.wf = true) (hself : s.withScript [] [] = s) (busy : Bool) :
    runSteps (if busy then [Turn.engine] else []).length (s.withScript (if busy then [.engine] else []) []) =
      if busy then engineStep s else .next s := by
  cases busy with
  | false => exact congrArg Host.Outcome.next hself
  | true =>
    refine (runSteps_one _).trans ((step_engine (s := s.withScript [.engine] []) hcfg rfl).trans ?_)
    exact congrArg engineStep hself

/-- Settles O51, by the pins: a reset, or the host's access if there is one, then the engine's part. -/
theorem clockEdgeIsOneInterleaving : Obligations.ClockEdgeIsOneInterleaving := by
  intro p s hcfg hturns hscript
  have hself := withScript_self hturns hscript
  change runSteps _ (s.withScript (edgeTurns p s.busy) (edgeScript p)) = _
  rw [clockEdge]
  cases hrst : p.rst with
  | true =>
    rw [edgeTurns, edgeScript, hrst]
    refine (runSteps_one _).trans ((step_reset (s := s.withScript [.reset] []) hcfg rfl).trans ?_)
    exact congrArg (fun t => Host.Outcome.next t.resetEdge) hself
  | false =>
    cases hsel : p.hSel with
    | false =>
      have haccess : p.access s = s := by rw [Pins.access, hsel]; rfl
      rw [edgeTurns, edgeScript, hrst, hsel, haccess]
      exact runSteps_edge_engine hcfg hself s.busy
    | true =>
      rw [edgeTurns, hrst, hsel]
      change andThen (step (s.withScript (.host :: if s.busy then [.engine] else []) (edgeScript p))) (runSteps _) = _
      rw [step_withScript_host hcfg, hostTurn_edge hrst hsel]
      exact runSteps_edge_engine ((access_cfg p s).symm ▸ hcfg) (access_withScript hturns hscript p) s.busy

end Sys2Proof.Machine
end


section
/-! LOADIN as its writes (30_encoding.md R75): O59. -/
namespace Sys2Proof.Machine

/-- A write of the script is one step of an idle block. -/
theorem step_wr {s : State} {a v : Word} {ops : List HostOp} (hcfg : s.cfg.wf = true) (hidle : s.phase = .idle)
    (hturns : s.turns = []) (hscript : s.script = .wr a v :: ops) :
    step s = .next { hostWrite a v s with script := ops } := by
  rw [step_idle hcfg hturns hidle, hostTurn, hscript]
  rfl

theorem target_inLenAddr (cfg : Config) : target cfg inLenAddr = .inLen := rfl

/-- R25: an IN_LEN write while IDLE. -/
theorem hostWrite_inLenAddr_of_idle {s : State} (v : Word) (h : s.phase = .idle) :
    hostWrite inLenAddr v s = State.afterWrite { s with inLen := v } := by
  rw [hostWrite, target_inLenAddr]
  exact guardedWrite_of_idle _ h

/-- The writes of a LOADIN from entry `k` on: IBUF[k], IBUF[k+1], … from the elements `es`, then IN_LEN. -/
def loadWrites (k : Nat) (es : List Word) (n : Word) : List HostOp :=
  es.mapIdx (fun i e => .wr (ibufAddr (BitVec.ofNat 32 (k + i))) e) ++ [.wr inLenAddr n]

theorem loadWrites_cons (k : Nat) (e : Word) (es : List Word) (n : Word) :
    loadWrites k (e :: es) n = .wr (ibufAddr (BitVec.ofNat 32 k)) e :: loadWrites (k + 1) es n := by
  simp [loadWrites, List.mapIdx_cons, Nat.add_assoc, Nat.add_comm 1]

theorem expandStmt_loadin (es : List Word) :
    expandStmt (.loadin es) = loadWrites 0 es (BitVec.ofNat 32 es.length) := by
  simp [expandStmt, loadWrites]

/-- One IBUF write of a LOADIN, the entries before it kept. -/
theorem ibufBytes_store (s : State) {b : List Byte} (v : Byte) (h : (List.range b.length).map s.ibufByte = b) :
    (List.range (b.length + 1)).map (State.ibufByte { s with ibuf := s.ibuf.store b.length v }) = b ++ [v] := by
  rw [List.range_succ, List.map_append, List.map_singleton, State.ibufByte_store_self]
  congr 1
  refine .trans (List.map_congr_left fun j hj => s.ibufByte_store_other v ?_) h
  have := List.mem_range.mp hj
  omega

/-- With the bytes `b` loaded, the writes of `es` load their low bytes behind them, and IN_LEN is set. -/
theorem runSteps_loadWrites {s : State} (es : List Word) (b : List Byte) (n : Word) (hcfg : s.cfg.wf = true)
    (hidle : s.phase = .idle) (hturns : s.turns = []) (hscript : s.script = loadWrites b.length es n)
    (hfit : b.length + es.length ≤ s.cfg.ibufDepth) (hloaded : (List.range b.length).map s.ibufByte = b) :
    ∃ u, runSteps (es.length + 1) s = .next u ∧ u.cfg = s.cfg ∧ u.phase = .idle ∧ u.script = [] ∧ u.inLen = n
      ∧ (List.range (b.length + es.length)).map u.ibufByte = b ++ es.map (fun e => e.extractLsb 7 0) := by
  induction es generalizing s b with
  | nil =>
    refine ⟨_, (runSteps_one s).trans (step_wr hcfg hidle hturns hscript), ?_⟩
    rw [hostWrite_inLenAddr_of_idle n hidle]
    rw [List.map_nil, List.append_nil]
    exact ⟨rfl, hidle, rfl, rfl, hloaded⟩
  | cons e es ih =>
    rw [List.length_cons] at hfit
    have hdepth := (Config.depths_le hcfg).1
    have hindex : (BitVec.ofNat 32 b.length).toNat = b.length := by
      rw [BitVec.toNat_ofNat]
      omega
    have ha := target_ibufAddr (i := BitVec.ofNat 32 b.length) hcfg (by omega)
    rw [loadWrites_cons] at hscript
    rw [hindex] at ha
    have hstep := step_wr hcfg hidle hturns hscript
    rw [hostWrite_ibuf_of_idle e hidle ha] at hstep
    have hlength : (b ++ [e.extractLsb 7 0]).length = b.length + 1 := List.length_append
    obtain ⟨u, hrun, hcfg', hidle', hscript', hinLen, hbytes⟩ := ih
      (s := { State.afterWrite { s with ibuf := s.ibuf.store b.length (e.extractLsb 7 0) } with
        script := loadWrites (b.length + 1) es n })
      (b ++ [e.extractLsb 7 0]) hcfg hidle hturns (by rw [hlength])
      (by rw [hlength]; dsimp only [State.afterWrite_cfg]; omega) (by rw [hlength]; exact ibufBytes_store s _ hloaded)
    refine ⟨u, ?_, hcfg', hidle', hscript', hinLen, ?_⟩
    · rw [List.length_cons, runSteps, hstep]
      exact hrun
    · rw [hlength, Nat.add_assoc, Nat.add_comm 1, List.append_assoc] at hbytes
      exact hbytes

/-- Settles O59: a LOADIN is the writes of all its elements from entry 0 on. -/
theorem loadinLoadsTheInput : Obligations.LoadinLoadsTheInput := by
  intro s es hcfg hidle hturns hscript hfit
  rw [expandStmt_loadin] at hscript
  obtain ⟨u, hrun, hcfg', hidle', hscript', hinLen, hbytes⟩ :=
    runSteps_loadWrites es [] _ hcfg hidle hturns hscript (by simpa using hfit) rfl
  have hdepth := (Config.depths_le hcfg).1
  have hlen : u.inLen.toNat = es.length := by
    rw [hinLen, BitVec.toNat_ofNat]
    omega
  have hloaded : Loaded u (es.map fun e => e.extractLsb 7 0) := by
    rw [List.length_nil, Nat.zero_add, List.nil_append] at hbytes
    exact ⟨by rw [hlen, List.length_map], by rwa [List.length_map]⟩
  exact ⟨u, hrun, ⟨hidle', hloaded, hcfg' ▸ hcfg, by rwa [List.length_map, hcfg']⟩, hscript'⟩

end Sys2Proof.Machine
end


section
/-! What the host reads (10_state.md R19, R20, R25, R26; 20_memory.md R47, R48, R63): O14, O16, O18, O19, O20, O21. -/
namespace Sys2Proof.Machine

theorem target_statusAddr (cfg : Config) : target cfg statusAddr = .status := rfl

theorem target_outLenAddr (cfg : Config) : target cfg outLenAddr = .outLen := rfl

/-- `obufAddr i` is the address of OBUF[i] (20_memory.md R43). -/
theorem target_obufAddr {cfg : Config} {i : Word} (hcfg : cfg.wf = true) (hi : i.toNat < cfg.obufDepth) :
    target cfg (obufAddr i) = .obuf i.toNat := by
  obtain ⟨_, hdepth⟩ := Config.depths_le hcfg
  have haddr : (obufAddr i).toNat = 0x20000000 + i.toNat := by
    rw [obufAddr]
    bv_omega
  rw [target_obufWindow cfg (by omega) (by omega), haddr, if_pos (by omega), Nat.add_sub_cancel_left]

/-- Settles O14: the address selects IN_LEN, whose write is guarded and whose read is the register. -/
theorem inLenIsAPlainRegister : Obligations.InLenIsAPlainRegister := by
  refine fun s v => ⟨fun hidle => ?_, by rw [hostReadValue, target_inLenAddr]⟩
  rw [hostWrite_inLenAddr_of_idle v hidle, State.afterWrite_block]

/-- Settles O16, by the four targets. -/
theorem ignoredWritesChangeNothing : Obligations.IgnoredWritesChangeNothing := by
  intro s a v h
  obtain e | e | e | ⟨i, e⟩ := h <;> rw [hostWrite, e]

/-- Settles O18, by the five targets. -/
theorem hostReadsReturnTheStoredValues : Obligations.HostReadsReturnTheStoredValues := by
  intro s i hcfg
  refine ⟨by rw [hostReadValue, target_cmdAddr], by rw [hostReadValue, target_statusAddr],
    by rw [hostReadValue, target_outLenAddr], fun hi => ?_, fun hi hidle => ?_, hostRead_hRdata s⟩
  · rw [hostReadValue, target_ibufAddr hcfg hi]
    exact BitVec.toNat_setWidth_of_le (by decide)
  · have hread : s.busy = false := by simp [State.busy, hidle]
    rw [hostReadValue, target_obufAddr hcfg hi, hread]
    exact BitVec.toNat_setWidth_of_le (by decide)

/-- Settles O19: a read moves h_rdata, what the host has read and the draw number, and only a busy OBUF read looks at
any of them. -/
theorem hostReadsHaveNoSideEffect : Obligations.HostReadsHaveNoSideEffect := by
  refine fun s a b => ⟨rfl, fun hobuf => ?_⟩
  rw [hostReadValue, hostReadValue, hostRead_cfg]
  cases hb : target s.cfg b with
  | obuf i =>
    have hread : s.busy = false := by simp [State.busy, hobuf ⟨i, hb⟩]
    have hread' : (hostRead a s).busy = false := hread
    rw [hread, hread']
    rfl
  | _ => rfl

/-! ### STATUS -/

/-- The fields of R20 as bits, and the word as a number, for every value of the four. -/
theorem statusWord_fields : ∀ (code : BitVec 4) (drop done busy : Bool),
    let w := 0#24 ++ code ++ 0#1 ++ BitVec.ofBool drop ++ BitVec.ofBool done ++ BitVec.ofBool busy
    w.getLsbD 0 = busy ∧ w.getLsbD 1 = done ∧ w.getLsbD 2 = drop ∧ w.getLsbD 3 = false ∧ w.extractLsb 7 4 = code
      ∧ w.toNat = 16 * code.toNat + 4 * drop.toNat + 2 * done.toNat + busy.toNat := by decide

/-- The STATUS word as a number. -/
theorem status_toNat (s : State) :
    s.status.toNat = 16 * s.result.code.toNat + 4 * s.drop.toNat + 2 * s.done.toNat + s.busy.toNat := by
  obtain ⟨_, _, _, _, _, h⟩ := statusWord_fields s.result.code s.drop s.done s.busy
  exact h

/-- Settles O20: each bit is its field, and RESULT's code is R119's. -/
theorem statusWordHasItsFields : Obligations.StatusWordHasItsFields := by
  intro s
  obtain ⟨hbusy, hdone, hdrop, hzero, hcode, htotal⟩ := statusWord_fields s.result.code s.drop s.done s.busy
  have hresult : s.status.extractLsb 7 4 = s.result.code := hcode
  refine ⟨by rw [← busy_iff]; exact Bool.eq_iff_iff.mp hbusy, hdone, hdrop, hzero, ?_, ?_, hdone.symm⟩
  · rw [hresult]
    cases s.result <;> rfl
  · have hcode := s.result.code.isLt
    have hdrop := s.drop.toNat_le
    have hdone := s.done.toNat_le
    have hbusy := s.busy.toNat_le
    rw [status_toNat]
    omega

/-- Settles O21: R21's combinations give eleven words. -/
theorem statusCombinationsAreThoseOfR21 : Obligations.StatusCombinationsAreThoseOfR21 := by
  intro s hs
  obtain ⟨hrunning, hended, houtLen⟩ := hs.statusOk
  refine ⟨?_, fun hbusy => houtLen (by simp [(hrunning hbusy).2])⟩
  rw [status_toNat]
  by_cases hidle : s.phase = .idle
  · have hbusy : s.busy = false := by simp [State.busy, hidle]
    obtain ⟨hdone, hresult, hdrop⟩ | ⟨hdone, hresult⟩ := hended hidle
    · rw [hbusy, hdone, hresult, hdrop]
      decide
    · rw [hbusy, hdone]
      cases hcode : s.result with
      | none => exact absurd hcode hresult
      | _ => cases s.drop <;> decide
  · obtain ⟨hdone, hresult⟩ := hrunning hidle
    rw [busy_iff.mpr hidle, hdone, hresult]
    cases s.drop <;> decide

end Sys2Proof.Machine
end


section
/-! The command word by its number (30_encoding.md R67 to R70), the alphabet's lookup (20_memory.md R54 to R57), an
overlong input (60_exceptions.md R123) and the registers at reset (10_state.md R36): O1, O3, O4, O5, O6, O31, O44. -/
namespace Sys2Proof

/-- RSV is the word without its low three bits. -/
theorem rsv_toNat (w : Word) : (w.extractLsb 31 3).toNat = w.toNat / 8 := by
  have hlt := w.isLt
  simp only [BitVec.extractLsb, BitVec.extractLsb', BitVec.toNat_ofNat, Nat.shiftRight_eq_div_pow]
  omega

/-- OP is the word's low two bits. -/
theorem op_toNat (w : Word) : (w.extractLsb 1 0).toNat = w.toNat % 4 := by
  simp [BitVec.extractLsb, BitVec.extractLsb']

/-- R77's checks, in the terms of the word's number. -/
theorem decodeCmd_eq (w : Word) :
    decodeCmd w =
      if w.toNat / 8 ≠ 0 then .illegal .reservedBits
      else if w.toNat % 4 = 1 then .command (.encode (w.getLsbD 2))
      else if w.toNat % 4 = 2 then .command (.decode (w.getLsbD 2))
      else .illegal .reservedOp := by
  simp only [decodeCmd, ne_eq, BitVec.toNat_eq, rsv_toNat, op_toNat]
  rfl

/-- Settles O4, by R77's checks. -/
theorem reservedWordsAreExactlyTheIllegalOnes : Obligations.ReservedWordsAreExactlyTheIllegalOnes := by
  intro w
  rw [decodeCmd_eq]
  split
  · next hrsv => exact ⟨fun _ => .inl hrsv, fun _ => ⟨_, rfl⟩⟩
  · split
    · exact ⟨nofun, by omega⟩
    · split
      · exact ⟨nofun, by omega⟩
      · exact ⟨fun _ => by omega, fun _ => ⟨_, rfl⟩⟩

/-- Settles O3: every command's word decodes to it. -/
theorem decodeOfEncodeIsTheCommand : Obligations.DecodeOfEncodeIsTheCommand := fun i _ => decodeCmd_encode i

/-- Settles O1, by the words themselves. -/
theorem tableWordsDecodeAsWritten : Obligations.TableWordsDecodeAsWritten := by
  unfold Obligations.TableWordsDecodeAsWritten
  decide

end Sys2Proof

namespace Sys2Proof.Machine

/-- Settles O5: a code found is at its position, a symbol's code is found, and the ranges agree code by code. -/
theorem reverseLookupInvertsTheRom : Obligations.ReverseLookupInvertsTheRom := by
  refine ⟨fun c v => ⟨rom_of_rlut, ?_⟩, by decide⟩
  rintro rfl
  exact rlut_rom v

/-- Settles O6, symbol by symbol. -/
theorem padCodeIsNoSymbol : Obligations.PadCodeIsNoSymbol := ⟨rom_ne_padCode, by decide, rfl⟩

/-- Settles O31: CHECK finishes the command, and after it the engine takes no step. -/
theorem overlongInputIsErrLen : Obligations.OverlongInputIsErrLen := by
  intro s i hphase hlong
  refine ⟨s.finish .errLen, ?_, rfl⟩
  have hcheck : engineStepOf (.command i) s = .next (s.finish .errLen) := by
    rw [engineStepOf, hphase]
    exact if_pos hlong
  rw [exec_eq_engineRun]
  have hbound : stepBound i s.lLen.toNat ≠ 0 := by cases i <;> simp [stepBound, encodeStepBound, decodeStepBound]
  obtain ⟨n, hn⟩ := Nat.exists_eq_succ_of_ne_zero hbound
  rw [hn, engineRun_succ, hcheck, andThen_next, engineRun_idle rfl]

/-- Settles O44, register by register. -/
theorem resetValuesAreThoseOfR36 : Obligations.ResetValuesAreThoseOfR36 := by
  unfold Obligations.ResetValuesAreThoseOfR36
  decide

end Sys2Proof.Machine
end
